-- ==== Sys2Proof/Word.lean ====
section
/-! DEFINITION. The words of the hardware: bytes, 16-bit values and byte sequences (00_scope.md 6.2). -/

namespace Sys2Proof

/-- `Byte`: an unsigned integer of 8 bits (R31). -/
abbrev Byte := BitVec 8

/-- `U16`: an unsigned integer of 16 bits (00_scope.md 6.2). -/
abbrev U16 := BitVec 16

/-- `Bytes`: a finite sequence of bytes, index 0 first (00_scope.md 6.2, R31). -/
abbrev Bytes := List Byte

end Sys2Proof
end

