-- ==== Sys2Proof/Config.lean ====
section
/-! DEFINITION. The implementation parameters of R3: the fixed ones as constants, the open capacities as a record.
The open CRC_TABLE is the `rom` field of State; its default stands in Machine/CrcTable.lean. -/

namespace Sys2Proof

/-- The open capacities of R3 and R38; `none` is unbounded. -/
structure Config where
  /-- `PAYLOAD_CAP`: capacity in bytes of `DS.payload`. -/
  payloadCap : Option Nat
  /-- `MSG_CAP`: capacity in bytes of a packet's message. -/
  msgCap : Option Nat
deriving DecidableEq, Repr

namespace Config

/-- `START_SHORT` (R3, R53). -/
def startShort : Byte := 0x02

/-- `START_LONG` (R3, R53). -/
def startLong : Byte := 0x03

/-- `TERMINATOR` (R3, R56). -/
def terminator : Byte := 0x03

/-- `CRC_INIT` (R3, R90). -/
def crcInit : U16 := 0x0000

/-- `LEN_MAX` (R3). -/
def lenMax : Nat := 65535

/-- `SHORT_MAX` (R3, R121, decision D1). -/
def shortMax : Nat := 255

/-- `FIELD_WIDTHS` (R3, R117). -/
def fieldWidths : List Nat := [8, 16, 32]

/-- The default of R3: both capacities unbounded. -/
def unbounded : Config := ⟨none, none⟩

/-- A finite `PAYLOAD_CAP` is at least 65535 (R3, R38). -/
def wf (c : Config) : Bool :=
  match c.payloadCap with
  | none => true
  | some n => decide (lenMax ≤ n)

end Config

end Sys2Proof
end

