-- ==== Sys2Proof/Syntax.lean ====
section
/-! DEFINITION. The operations (one constructor of `Instr` per row of spec/opcode_table.json), the operands that travel
beside a command word, and what the caller can present to the block. -/

namespace Sys2Proof

/-- The seven decoder phases (R11); there is no eighth (R26). -/
inductive Phase where
  | start | lenHi | lenLo | payload | crcHi | crcLo | terminate
deriving DecidableEq, Repr

/-- The name the caller gives a packet (the operand `pk` of R64). -/
abbrev PktName := Nat

/-- One triple of `PKT_FROM_FIELDS`: width, value, scale, in the source's order (R64, R102). The width is a number, since
another width than 8, 16, 32 is a refusal of its own (R117). -/
structure FieldArg where
  width : Nat
  value : Rat
  scale : Rat
deriving DecidableEq, Repr

/-- The operand of `SERIALIZE`: bytes, or a packet whose message is meant (R64, R65). -/
inductive PayloadArg where
  | lit (s : Bytes)
  | message (pk : PktName)
deriving DecidableEq, Repr

/-- One constructor per row of spec/opcode_table.json. -/
inductive Instr where
  /-- START_SHORT: wire byte 0x02 in phase 0 (R51, R53, R71). -/
  | startShort
  /-- START_LONG: wire byte 0x03 in phase 0 (R52, R53, R71). -/
  | startLong
  /-- START_IGNORED: any other wire byte in phase 0 (R53, R60, R71). -/
  | startIgnored (b : Byte)
  /-- TERMINATOR: wire byte 0x03 in phase 6 (R56, R77). -/
  | terminator
  /-- DEC_RESET (R81). -/
  | decReset
  /-- DEC_BYTE b (R70). -/
  | decByte (b : Byte)
  /-- CRC16 s (R90). -/
  | crc16 (s : Bytes)
  /-- PKT_EMPTY pk (R100). -/
  | pktEmpty (pk : PktName)
  /-- PKT_FROM_BYTES pk, s (R101). -/
  | pktFromBytes (pk : PktName) (s : Bytes)
  /-- APPEND.8 pk, v, scale (R104). -/
  | append8 (pk : PktName) (v scale : Rat)
  /-- APPEND.16 pk, v, scale (R105). -/
  | append16 (pk : PktName) (v scale : Rat)
  /-- APPEND.32 pk, v, scale (R106). -/
  | append32 (pk : PktName) (v scale : Rat)
  /-- READ.8 pk, scale, adv or peek (R108). -/
  | read8 (pk : PktName) (scale : Rat) (adv : Bool)
  /-- READ.16 pk, scale, adv or peek (R109). -/
  | read16 (pk : PktName) (scale : Rat) (adv : Bool)
  /-- READ.32 pk, scale, adv or peek (R110). -/
  | read32 (pk : PktName) (scale : Rat) (adv : Bool)
  /-- REMAINING pk (R111). -/
  | remaining (pk : PktName)
  /-- SERIALIZE s or SERIALIZE pk (R120). -/
  | serialize (src : PayloadArg)
  /-- RESET (R150). -/
  | reset
  /-- DEC_FEED s, a pseudo-operation (R80). -/
  | decFeed (s : Bytes)
  /-- PKT_FROM_FIELDS pk, triples, a pseudo-operation (R102). -/
  | pktFromFields (pk : PktName) (fields : List FieldArg)
  /-- RESERVED: a reserved command word (R63). -/
  | reserved (cmd : Byte)
deriving DecidableEq, Repr

/-- The operands beside a command word, one constructor per shape of R63's and R64's operand columns. -/
inductive Operands where
  | unit
  | byte (b : Byte)
  | bytes (s : Bytes)
  | name (pk : PktName)
  | nameBytes (pk : PktName) (s : Bytes)
  | field (pk : PktName) (v scale : Rat)
  | scaled (pk : PktName) (scale : Rat)
  | payload (src : PayloadArg)
deriving DecidableEq, Repr

/-- What the caller can invoke: a received byte for the decoder (R4, R30 RX stream), a command word with its operands
(R62), or a pseudo-operation, which has no command word (R65). -/
inductive Request where
  | wire (b : Byte)
  | command (cmd : Byte) (ops : Operands)
  | feed (s : Bytes)
  | fromFields (pk : PktName) (fields : List FieldArg)
deriving DecidableEq, Repr

/-- One move of the caller. -/
inductive Input where
  /-- Invoke one operation and let it end (R4, R39). -/
  | call (r : Request)
  /-- Invoke `r₂` while `r₁` has not ended (R41, R159). -/
  | overlapping (r₁ r₂ : Request)
  /-- Take the `k`-th packet the last operation offered, under the name `pk` (R153, R160; log entry 5). -/
  | take (pk : PktName) (k : Nat)
deriving DecidableEq, Repr

end Sys2Proof
end

