-- ==== Sys2Proof/WellFormed.lean ====
section
/-! DEFINITION. Which terms of `Instr` the spec's syntax admits. -/

namespace Sys2Proof

/-- Whether an operation select and its must-be-zero fields make `cmd` one of the assigned words of R63, written from the
rule's list of reserved words: unassigned `op`, `ws = 3`, a nonzero must-be-zero field. -/
def assignedCommand (cmd : Byte) : Bool :=
  let op := (cmd.extractLsb' 4 4).toNat
  let ws := (cmd.extractLsb' 2 2).toNat
  let adv := cmd.getLsbD 1
  let zero := !cmd.getLsbD 0
  zero && (([1, 2, 3, 4, 5, 8, 9, 15].contains op && ws == 0 && !adv)
    || (op == 6 && ws != 3 && !adv)
    || (op == 7 && ws != 3))

/-- A triple of `PKT_FROM_FIELDS` has a legal bit-width (R117). -/
def FieldArg.wf (f : FieldArg) : Bool := Config.fieldWidths.contains f.width

/-- Well-formed syntax: an ignored byte is no start marker (R53), a reserved word is not assigned (R63), and the widths of
`PKT_FROM_FIELDS` are legal (R117). Every other operand is bounded by its type. -/
def Instr.wf (i : Instr) : Bool :=
  match i with
  | .startIgnored b => b != Config.startShort && b != Config.startLong
  | .reserved cmd => !assignedCommand cmd
  | .pktFromFields _ fields => fields.all FieldArg.wf
  | .startShort | .startLong | .terminator | .decReset | .decByte _ | .crc16 _ | .pktEmpty _ | .pktFromBytes _ _
  | .append8 _ _ _ | .append16 _ _ _ | .append32 _ _ _ | .read8 _ _ _ | .read16 _ _ _ | .read32 _ _ _
  | .remaining _ | .serialize _ | .reset | .decFeed _ => true

/-- The decoder phases in which a wire row of the table is read from its byte: a start row in phase 0, the terminator in
phase 6 (R53, R56). Every other instruction is read in any phase. -/
def Instr.readIn (i : Instr) (ph : Phase) : Bool :=
  match i with
  | .startShort | .startLong | .startIgnored _ => ph == .start
  | .terminator => ph == .terminate
  | .decReset | .decByte _ | .crc16 _ | .pktEmpty _ | .pktFromBytes _ _
  | .append8 _ _ _ | .append16 _ _ _ | .append32 _ _ _ | .read8 _ _ _ | .read16 _ _ _ | .read32 _ _ _
  | .remaining _ | .serialize _ | .reset | .decFeed _ | .pktFromFields _ _ | .reserved _ => true

end Sys2Proof
end

