-- ==== Sys2Proof/Decode.lean ====
section
/-! DEFINITION. Decoding what the caller presents, total, and the encoder written from the same tables
(30_encoding.md R53, R56, R62, R63). -/

namespace Sys2Proof

/-- Why a request is no instruction. -/
inductive DecodeError where
  /-- The operands beside the assigned command word `cmd` are not of the shape R63 gives it (log entry 6). -/
  | wrongOperands (cmd : Byte)
deriving DecidableEq, Repr

/-- The legal field widths, as the width select of R62 names them. -/
inductive FieldWidth where
  | w8 | w16 | w32
deriving DecidableEq, Repr

/-- The bit-width (R62). -/
def FieldWidth.bits (w : FieldWidth) : Nat :=
  match w with
  | .w8 => 8
  | .w16 => 16
  | .w32 => 32

/-- What an assigned command word selects (R63). -/
inductive Op where
  | decReset | decByte | crc16 | pktEmpty | pktFromBytes
  | append (w : FieldWidth)
  | read (w : FieldWidth) (adv : Bool)
  | remaining | serialize | reset
deriving DecidableEq, Repr

/-- The width select `ws` of R62; 3 is reserved. -/
def decodeWidth (ws : Nat) : Option FieldWidth :=
  match ws with
  | 0 => some .w8
  | 1 => some .w16
  | 2 => some .w32
  | _ => none

/-- The command word: `op[7:4] ws[3:2] adv[1] 0[0]` (R62, R63); `none` for a reserved word. -/
def decodeOp (cmd : Byte) : Option Op :=
  let op := (cmd.extractLsb' 4 4).toNat
  let ws := (cmd.extractLsb' 2 2).toNat
  let adv := cmd.getLsbD 1
  if cmd.getLsbD 0 then none
  else
    match op, ws, adv with
    | 0x1, 0, false => some .decReset
    | 0x2, 0, false => some .decByte
    | 0x3, 0, false => some .crc16
    | 0x4, 0, false => some .pktEmpty
    | 0x5, 0, false => some .pktFromBytes
    | 0x6, ws, false => (decodeWidth ws).map .append
    | 0x7, ws, adv => (decodeWidth ws).map (.read · adv)
    | 0x8, 0, false => some .remaining
    | 0x9, 0, false => some .serialize
    | 0xF, 0, false => some .reset
    | _, _, _ => none

/-- `APPEND` of a width. -/
def appendInstr (w : FieldWidth) (pk : PktName) (v scale : Rat) : Instr :=
  match w with
  | .w8 => .append8 pk v scale
  | .w16 => .append16 pk v scale
  | .w32 => .append32 pk v scale

/-- `READ` of a width. -/
def readInstr (w : FieldWidth) (pk : PktName) (scale : Rat) (adv : Bool) : Instr :=
  match w with
  | .w8 => .read8 pk scale adv
  | .w16 => .read16 pk scale adv
  | .w32 => .read32 pk scale adv

/-- Join an operation with the operands beside it; `none` when they are not of the operation's shape (R63, R64). -/
def bindOperands (op : Op) (ops : Operands) : Option Instr :=
  match op, ops with
  | .decReset, .unit => some .decReset
  | .decByte, .byte b => some (.decByte b)
  | .crc16, .bytes s => some (.crc16 s)
  | .pktEmpty, .name pk => some (.pktEmpty pk)
  | .pktFromBytes, .nameBytes pk s => some (.pktFromBytes pk s)
  | .append w, .field pk v scale => some (appendInstr w pk v scale)
  | .read w adv, .scaled pk scale => some (readInstr w pk scale adv)
  | .remaining, .name pk => some (.remaining pk)
  | .serialize, .payload src => some (.serialize src)
  | .reset, .unit => some .reset
  | _, _ => none

/-- The role of a received byte, which only the decoder's phase decides (R53, R56): a start marker or an ignored byte in
phase 0, the terminator in phase 6, otherwise data (or, in phase 6, a wrong terminator). -/
def decodeWire (ph : Phase) (b : Byte) : Instr :=
  match ph with
  | .start =>
    if b = Config.startShort then .startShort
    else if b = Config.startLong then .startLong
    else .startIgnored b
  | .terminate => if b = Config.terminator then .terminator else .decByte b
  | .lenHi | .lenLo | .payload | .crcHi | .crcLo => .decByte b

/-- The decoder, total on every request. -/
def decode (ph : Phase) (r : Request) : Except DecodeError Instr :=
  match r with
  | .wire b => .ok (decodeWire ph b)
  | .feed s => .ok (.decFeed s)
  | .fromFields pk fields => .ok (.pktFromFields pk fields)
  | .command cmd ops =>
    match decodeOp cmd with
    | none => .ok (.reserved cmd)
    | some op =>
      match bindOperands op ops with
      | some i => .ok i
      | none => .error (.wrongOperands cmd)

/-- The encoder: the byte, or the command word of R63 with its operands, or the pseudo-operation. -/
def encode (i : Instr) : Request :=
  match i with
  | .startShort => .wire 0x02
  | .startLong => .wire 0x03
  | .startIgnored b => .wire b
  | .terminator => .wire 0x03
  | .decReset => .command 0x10 .unit
  | .decByte b => .command 0x20 (.byte b)
  | .crc16 s => .command 0x30 (.bytes s)
  | .pktEmpty pk => .command 0x40 (.name pk)
  | .pktFromBytes pk s => .command 0x50 (.nameBytes pk s)
  | .append8 pk v scale => .command 0x60 (.field pk v scale)
  | .append16 pk v scale => .command 0x64 (.field pk v scale)
  | .append32 pk v scale => .command 0x68 (.field pk v scale)
  | .read8 pk scale adv => .command (if adv then 0x72 else 0x70) (.scaled pk scale)
  | .read16 pk scale adv => .command (if adv then 0x76 else 0x74) (.scaled pk scale)
  | .read32 pk scale adv => .command (if adv then 0x7A else 0x78) (.scaled pk scale)
  | .remaining pk => .command 0x80 (.name pk)
  | .serialize src => .command 0x90 (.payload src)
  | .reset => .command 0xF0 .unit
  | .decFeed s => .feed s
  | .pktFromFields pk fields => .fromFields pk fields
  | .reserved cmd => .command cmd .unit

/-- Whether a request invokes an operation on `DS`: `DEC_BYTE`, `DEC_FEED`, `DEC_RESET`, `RESET` and no other (R15). -/
def Request.onDecoder (r : Request) : Bool :=
  match r with
  | .wire _ | .feed _ => true
  | .fromFields _ _ => false
  | .command cmd _ => cmd == 0x10 || cmd == 0x20 || cmd == 0xF0

/-- One row of the table's match and mask columns. -/
structure TableRow where
  mnemonic : String
  value : Byte
  mask : Byte
deriving DecidableEq, Repr

/-- The command-word rows of spec/opcode_table.json (R63). -/
def commandRows : List TableRow :=
  [⟨"DEC_RESET", 0x10, 0xFF⟩, ⟨"DEC_BYTE", 0x20, 0xFF⟩, ⟨"CRC16", 0x30, 0xFF⟩, ⟨"PKT_EMPTY", 0x40, 0xFF⟩,
   ⟨"PKT_FROM_BYTES", 0x50, 0xFF⟩, ⟨"APPEND.8", 0x60, 0xFF⟩, ⟨"APPEND.16", 0x64, 0xFF⟩, ⟨"APPEND.32", 0x68, 0xFF⟩]
  ++ [⟨"READ.8", 0x70, 0xFD⟩, ⟨"READ.16", 0x74, 0xFD⟩, ⟨"READ.32", 0x78, 0xFD⟩, ⟨"REMAINING", 0x80, 0xFF⟩,
   ⟨"SERIALIZE", 0x90, 0xFF⟩, ⟨"RESET", 0xF0, 0xFF⟩]

/-- A word is one of the row's words. -/
def TableRow.fits (row : TableRow) (cmd : Byte) : Bool := cmd &&& row.mask == row.value

/-- Operands to stand beside a command word where none are given: zero bytes, value 0 at scale 1, the packet named 0. The
table gives operands no bits (log entry 7). -/
def neutralOperands (cmd : Byte) : Operands :=
  match decodeOp cmd with
  | none | some .decReset | some .reset => .unit
  | some .decByte => .byte 0
  | some .crc16 => .bytes []
  | some .pktEmpty | some .remaining => .name 0
  | some .pktFromBytes => .nameBytes 0 []
  | some (.append _) => .field 0 0 1
  | some (.read _ _) => .scaled 0 1
  | some .serialize => .payload (.lit [])

/-- A word of the table as a request: the table holds command words and wire bytes side by side, so an assigned command
word is a command and every other word a received byte (log entry 7). -/
def tableRequest (w : Byte) : Request :=
  if assignedCommand w then .command w (neutralOperands w) else .wire w

/-- The instruction the decoder reads from an 8-bit word of the table, a wire byte being read in phase 0. -/
def decodeTableWord (nbits w : Nat) : Option Instr :=
  if nbits = 8 ∧ w < 256 then
    match decode .start (tableRequest (BitVec.ofNat 8 w)) with
    | .ok i => some i
    | .error _ => none
  else none

end Sys2Proof
end

