-- ==== Sys2Proof/Machine/State.lean ====
section
/-! DEFINITION. The state of the block (10_state.md), what an operation returns, why a step stops, and the state after
reset. -/

namespace Sys2Proof.Machine

/-- Decoder State `DS` (R10 to R14). -/
structure DecState where
  /-- `DS.phase` (R11). -/
  phase : Phase
  /-- `DS.payload`: the bytes accumulated so far (R12). -/
  payload : Bytes
  /-- `DS.length`: the declared payload length (R13). -/
  length : U16
  /-- `DS.crc`: the declared checksum (R14). -/
  crc : U16
deriving DecidableEq, Repr

/-- `FRESH` (R16). -/
def DecState.fresh : DecState := ⟨.start, [], 0, 0⟩

/-- A packet: its message and its read cursor (R17). -/
structure Packet where
  message : Bytes
  index : Nat
deriving DecidableEq, Repr

/-- The packets that exist, under the names the caller gave them, names strictly rising: the `MSG(pk)` spaces of R30, each
with its cursor. An unlisted name is no packet (R25, R153). The hardware has no other memory (R30, R37). -/
abbrev Memory := List (PktName × Packet)

/-- What one byte step reports (R18): three outcomes and no fourth (R79). -/
inductive DecOutcome where
  /-- `NONE`: no frame boundary was reached. -/
  | silent
  | success (p : Packet)
  | failure
deriving DecidableEq, Repr

/-- The errors that `READ` and `SERIALIZE` return, with the information R130 says is recorded. The third error kind,
`FrameRejected`, is the `failure` outcome (R131). -/
inductive OpError where
  | truncatedRead (width remaining : Nat)
  | malformedLength (len : Nat)
deriving DecidableEq, Repr

/-- What an operation returns (R63, R64 result columns). Not hardware state: the caller's view of the last operation
(R6, R18, R23; log entry 3). -/
inductive Result where
  /-- Nothing is returned, or no operation has run. -/
  | nothing
  /-- The outcome of one byte step. -/
  | outcome (o : DecOutcome)
  /-- The outcomes other than `NONE` of a `DEC_FEED`, in order (R80). -/
  | outcomes (os : List DecOutcome)
  /-- The checksum of a `CRC16`. -/
  | crc (c : U16)
  /-- The packet a constructor returns. -/
  | packet (p : Packet)
  /-- The value of a `READ`. -/
  | value (q : Rat)
  /-- The count of a `REMAINING`. -/
  | count (n : Nat)
  /-- The frame bytes of a `SERIALIZE`. -/
  | bytes (s : Bytes)
  /-- An error of `READ` or `SERIALIZE`, in place of its value or bytes (R137). -/
  | error (e : OpError)
deriving DecidableEq, Repr

/-- Faults: none. An error of R130 is an ordinary result and a run with errors is a good run (R141); the block has no other
way to stop. Safe: there is nothing a claim could lean on. -/
inductive Fault where
deriving DecidableEq, Repr

/-- The cases the spec gives no meaning (R134), and the model's own. Each is safe: the machine takes no step. -/
inductive Refusal where
  /-- Raised by exec for an instruction without a meaning yet; no arm does. Safe. -/
  | notModelled (mnemonic : String)
  /-- Raised by RESERVED: `ReservedCommand` of R134, a reserved command word (R63). Safe. -/
  | reservedCommand (cmd : Byte)
  /-- Raised by PKT_FROM_FIELDS: `BadWidth` of R134, a bit-width outside {8, 16, 32} (R117). Safe. -/
  | badWidth (w : Nat)
  /-- Raised by APPEND, READ, PKT_FROM_FIELDS: `BadScale` of R134, `scale <= 0` (R112). Safe. -/
  | badScale
  /-- Raised by APPEND, PKT_FROM_FIELDS: `FieldRange` of R134, a stored integer outside the field (R114). Safe. -/
  | fieldRange
  /-- Raised by APPEND, PKT_FROM_BYTES, PKT_FROM_FIELDS and the taking of a packet: `MsgOverflow` of R134 (R38). Safe. -/
  | msgOverflow
  /-- Raised by DEC_BYTE, DEC_FEED and the wire rows in phase 3: `PayloadOverflow` of R134 (R38). Safe. -/
  | payloadOverflow
  /-- Raised by step for two overlapping operations on `DS`: `Overlap` of R134 (R41). Safe. -/
  | overlap
  /-- Raised by APPEND, READ, REMAINING and SERIALIZE on a packet that was never created (R153, U14). Safe. -/
  | noPacket (pk : PktName)
  /-- Raised by step for operands that are not of the command word's shape; the model's own (log entry 6). Safe. -/
  | wrongOperands (cmd : Byte)
  /-- Raised by step when the caller takes a packet that the last operation did not offer (R160; log entry 5). Safe. -/
  | nothingOffered
deriving DecidableEq, Repr

/-- The state of the block (R10), its parameters (R3), and three fields of the model's own. -/
structure State where
  /-- The decoder state `DS`. -/
  ds : DecState
  /-- The packets that exist. -/
  pkts : Memory
  /-- `ROM[0..255]` (R21): read by index, never written. -/
  rom : Vector U16 256
  /-- The capacities (R3, R38); never written. -/
  cfg : Config
  /-- The model's own: what the last operation returned (log entry 3). -/
  result : Result
  /-- The model's own: the caller's moves still to come (R4, R6; log entry 4). -/
  pending : List Input
  /-- The bytes still to be fed of a `DEC_FEED` in progress, which takes one step a byte (R165); empty when there is none
  (log entry 9). The outcomes so far stand in `result`. -/
  feeding : Bytes
deriving DecidableEq, Repr

namespace State

/-- `DS <- d`. -/
def putDs (s : State) (d : DecState) : State := { s with ds := d }

/-- Replace the packets. -/
def putPkts (s : State) (m : Memory) : State := { s with pkts := m }

/-- Return `r` to the caller. -/
def putResult (s : State) (r : Result) : State := { s with result := r }

/-- Replace the caller's moves still to come. -/
def putPending (s : State) (l : List Input) : State := { s with pending := l }

/-- Replace the bytes still to be fed. -/
def putFeeding (s : State) (l : Bytes) : State := { s with feeding := l }

/-- The values after reset (R25): `DS = FRESH`, no packet, `ROM = CRC_TABLE`, no outcome pending; the default capacities
(R3); no move of the caller (log entry 4) and no `DEC_FEED` in progress (log entry 9). -/
def reset : State where
  ds := .fresh
  pkts := []
  rom := crcTable
  cfg := .unbounded
  result := .nothing
  pending := []
  feeding := []

end State

end Sys2Proof.Machine
end

