-- ==== Sys2Proof/Machine/Ops.lean ====
section
/-! DEFINITION. The shared operations over storage and results: the packet memory, `MemRead` and `MemWrite`, `ROM`, byte
order, and how an operation reports its result or its error. -/

namespace Sys2Proof.Machine

/-- The packet named `pk`, if it exists. -/
def Memory.get (m : Memory) (pk : PktName) : Option Packet :=
  match m with
  | [] => none
  | (n, p) :: rest => if n = pk then some p else Memory.get rest pk

/-- `pk <- p`: bind the name, in rising order; a name already bound is assigned anew (log entry 8). -/
def Memory.set (m : Memory) (pk : PktName) (p : Packet) : Memory :=
  match m with
  | [] => [(pk, p)]
  | (n, q) :: rest =>
    if pk < n then (pk, p) :: (n, q) :: rest
    else if pk = n then (pk, p) :: rest
    else (n, q) :: Memory.set rest pk p

/-- The canonical form: names strictly rising. -/
def Memory.wf (m : Memory) : Bool :=
  match m with
  | [] => true
  | [_] => true
  | (n, _) :: (k, q) :: rest => decide (n < k) && Memory.wf ((k, q) :: rest)

/-- `MemRead(space, addr, n)`: the `n` bytes from index `addr`, lowest index first (00_scope.md 6.3). -/
def memRead (space : Bytes) (addr n : Nat) : Bytes := (space.drop addr).take n

/-- `MemWrite(space, len, n, v)` at the end of a buffer: the only place the hardware writes one (00_scope.md 6.3, R30). -/
def memAppend (space v : Bytes) : Bytes := space ++ v

/-- Whether `n` bytes fit a capacity (R38). -/
def fits (cap : Option Nat) (n : Nat) : Bool :=
  match cap with
  | none => true
  | some c => decide (n ≤ c)

/-- `ROM[i]` (R21). -/
def romRead (rom : Vector U16 256) (i : Byte) : U16 := rom[i.toNat]'i.isLt

/-- `v[15:8]`. -/
def hiByte (v : U16) : Byte := v.extractLsb' 8 8

/-- `v[7:0]`. -/
def loByte (v : U16) : Byte := v.extractLsb' 0 8

/-- `zext_16(b)`. -/
def zext16 (b : Byte) : U16 := b.setWidth 16

/-- `be_bytes(n, x)`: most significant byte first (R33). -/
def beBytes (n x : Nat) : Bytes :=
  match n with
  | 0 => []
  | n + 1 => BitVec.ofNat 8 (x >>> (8 * n)) :: beBytes n x

/-- `be_val(s)`: unsigned (R33). -/
def beVal (s : Bytes) : Nat :=
  match s with
  | [] => 0
  | b :: t => b.toNat * 2 ^ (8 * t.length) + beVal t

/-- End an operation with result `r`. -/
def returnResult (r : Result) (s : State) : Host.Outcome State Fault Refusal := .next (s.putResult r)

/-- `raise <Error>(info)`: taking an error. It is reported as the operation's result and nothing is written: no mode, no
saved state, no transfer of control (R130, R137), hence nothing to return from (R138). -/
def raiseError (e : OpError) (s : State) : Host.Outcome State Fault Refusal := returnResult (.error e) s

/-- Bind a packet to a name and return it: a packet comes into being, if its message fits (R38, R100, R101). -/
def createPacket (pk : PktName) (p : Packet) (s : State) : Host.Outcome State Fault Refusal :=
  if fits s.cfg.msgCap p.message.length then returnResult (.packet p) (s.putPkts (s.pkts.set pk p))
  else .refused .msgOverflow

/-- The signal a byte step gives: nothing for `NONE` (R79, R80). -/
def DecOutcome.signal (o : DecOutcome) : List DecOutcome :=
  match o with
  | .silent => []
  | .success p => [.success p]
  | .failure => [.failure]

/-- The packet a `SUCCESS` outcome carries (R18). -/
def DecOutcome.packet? (o : DecOutcome) : Option Packet :=
  match o with
  | .success p => some p
  | .silent | .failure => none

/-- The packets the last operation offers, in stream order (R18, R80, R160). -/
def Result.offered (r : Result) : List Packet :=
  match r with
  | .outcome o => o.packet?.toList
  | .outcomes os => os.filterMap DecOutcome.packet?
  | .nothing | .crc _ | .packet _ | .value _ | .count _ | .bytes _ | .error _ => []

/-- The caller takes the `k`-th offered packet under a name (R153, R160). The packet is `PKT_FROM_BYTES` of the payload
(R101), so `MSG_CAP` bounds it too; the result stands as it was, and the taking is a step that runs no operation (log
entry 5). -/
def takeOffered (pk : PktName) (k : Nat) (s : State) : Host.Outcome State Fault Refusal :=
  match s.result.offered[k]? with
  | none => .refused .nothingOffered
  | some p =>
    if fits s.cfg.msgCap p.message.length then .next (s.putPkts (s.pkts.set pk p))
    else .refused .msgOverflow

/-- Two invocations of which the second does not wait for the first: no meaning when both are on `DS` (R41, R134);
otherwise they take effect one at a time in the order invoked (R39).
DESIGN CHOICE (log entry 10): putting the two in order is a step of its own that runs no operation, so two overlapping
operations take one step more than they would in turn. -/
def overlapRequests (r₁ r₂ : Request) (s : State) : Host.Outcome State Fault Refusal :=
  if r₁.onDecoder && r₂.onDecoder then .refused .overlap
  else .next (s.putPending (.call r₁ :: .call r₂ :: s.pending))

/-- A request that is no instruction stops by name. -/
def refuseRequest (e : DecodeError) : Host.Outcome State Fault Refusal :=
  match e with
  | .wrongOperands cmd => .refused (.wrongOperands cmd)

/-- Give the packet named 0 a place when it has none, so that an operation placed by `withFetchWord` finds its operand
(log entry 7). -/
def ensurePacketZero (m : Memory) : Memory :=
  match m.get 0 with
  | none => m.set 0 ⟨[], 0⟩
  | some _ => m

/-- Place one table word where the next step finds it, with what the word takes: an `APPEND`, `READ` or `REMAINING` its
packet, a wire byte a decoder at phase 0; a `DEC_FEED` in progress would run first, so there is none (log entry 7). -/
def placeTableWord (w : Byte) (s : State) : State :=
  let placed := (s.putPending (.call (tableRequest w) :: s.pending)).putFeeding []
  match decodeOp w with
  | some (.append _) | some (.read _ _) | some .remaining => placed.putPkts (ensurePacketZero s.pkts)
  | some _ => placed
  | none => placed.putDs .fresh

end Sys2Proof.Machine
end

