-- ==== Sys2Proof/Machine/Block.lean ====
section
/-! DEFINITION. The operations on the whole block: `RESET`, and the reserved command words. -/

namespace Sys2Proof.Machine

/-- RESET (R150): `DS <- FRESH`, every packet ceases to exist, `ROM` unchanged, no outcome. -/
def execReset (s : State) : Host.Outcome State Fault Refusal :=
  returnResult .nothing ((s.putDs .fresh).putPkts [])

/-- RESERVED: a reserved command word is a refusal (R63, R134). -/
def execReserved (cmd : Byte) (_s : State) : Host.Outcome State Fault Refusal := .refused (.reservedCommand cmd)

end Sys2Proof.Machine
end

