-- ==== Sys2Proof/Machine/Operands.lean ====
section
/-! DEFINITION. The operand forms: a packet by name, the payload of `SERIALIZE`, a field's width, value and scale
(R64, R112 to R117). -/

namespace Sys2Proof.Machine

/-- Run `k` on the packet named `pk`; a packet never created has no meaning (R153). -/
def withPacket (pk : PktName) (s : State) (k : Packet → Host.Outcome State Fault Refusal) :
    Host.Outcome State Fault Refusal :=
  match s.pkts.get pk with
  | some p => k p
  | none => .refused (.noPacket pk)

/-- Run `k` on the payload operand of `SERIALIZE`: bytes, or `pk.message` (R64, R65). -/
def withPayload (src : PayloadArg) (s : State) (k : Bytes → Host.Outcome State Fault Refusal) :
    Host.Outcome State Fault Refusal :=
  match src with
  | .lit l => k l
  | .message pk => withPacket pk s fun p => k p.message

/-- `trunc`: rounding toward zero (00_scope.md 6.2, R113). -/
def trunc (x : Rat) : Int := x.num.tdiv x.den

/-- `trunc(v * scale)` (R113), on the product's numerator and denominator before they are reduced, so that it evaluates
without normalising a rational; `storedInt_eq_trunc` says that it is `trunc (v * scale)`. -/
def storedInt (v scale : Rat) : Int := (v.num * scale.num).tdiv (v.den * scale.den)

/-- The domain of a field operation: a legal width, then a positive scale (R103, R107, R112, R117). -/
def checkField (w : Nat) (scale : Rat) : Except Refusal Unit :=
  if Config.fieldWidths.contains w then
    if 0 < scale then .ok () else .error .badScale
  else .error (.badWidth w)

/-- The bytes of a field: the stored integer, if in range, as `be_bytes(w/8, x)` (R103, R113, R114). -/
def encodeField (w : Nat) (v scale : Rat) : Except Refusal Bytes :=
  match checkField w scale with
  | .error r => .error r
  | .ok () =>
    if 0 ≤ storedInt v scale ∧ storedInt v scale ≤ 2 ^ w - 1 then
      .ok (beBytes (w / 8) (storedInt v scale).toNat)
    else .error .fieldRange

end Sys2Proof.Machine
end

