-- ==== Sys2Proof/Machine/FieldCodec.lean ====
section
/-! DEFINITION. The Field Codec (43_field_codec.md): packet constructors, `APPEND`, `READ`, `REMAINING`. -/

namespace Sys2Proof.Machine

/-- PKT_EMPTY pk (R100). -/
def execPktEmpty (pk : PktName) (s : State) : Host.Outcome State Fault Refusal := createPacket pk ⟨[], 0⟩ s

/-- PKT_FROM_BYTES pk, s (R101). -/
def execPktFromBytes (pk : PktName) (l : Bytes) (s : State) : Host.Outcome State Fault Refusal :=
  createPacket pk ⟨l, 0⟩ s

/-- `APPEND` on a packet (R103): the field's bytes go to the end of the message, the cursor stays. -/
def appendField (cfg : Config) (w : Nat) (v scale : Rat) (p : Packet) : Except Refusal Packet :=
  match encodeField w v scale with
  | .error r => .error r
  | .ok bs =>
    let message := memAppend p.message bs
    if fits cfg.msgCap message.length then .ok { p with message := message } else .error .msgOverflow

/-- `APPEND` of each triple in list order; a refusal of one is a refusal of the whole (R102). -/
def appendFields (cfg : Config) (fields : List FieldArg) (p : Packet) : Except Refusal Packet :=
  match fields with
  | [] => .ok p
  | f :: rest =>
    match appendField cfg f.width f.value f.scale p with
    | .error r => .error r
    | .ok p' => appendFields cfg rest p'

/-- PKT_FROM_FIELDS pk, triples (R102): no packet comes into being on a refusal. -/
def execPktFromFields (pk : PktName) (fields : List FieldArg) (s : State) : Host.Outcome State Fault Refusal :=
  match appendFields s.cfg fields ⟨[], 0⟩ with
  | .error r => .refused r
  | .ok p => createPacket pk p s

/-- `APPEND.w pk, v, scale` as a step (R103); it returns nothing but the packet updated. -/
def appendTo (w : Nat) (pk : PktName) (v scale : Rat) (s : State) : Host.Outcome State Fault Refusal :=
  withPacket pk s fun p =>
    match appendField s.cfg w v scale p with
    | .error r => .refused r
    | .ok p' => returnResult .nothing (s.putPkts (s.pkts.set pk p'))

/-- APPEND.8 (R104). -/
def execAppend8 (pk : PktName) (v scale : Rat) (s : State) : Host.Outcome State Fault Refusal := appendTo 8 pk v scale s

/-- APPEND.16 (R105). -/
def execAppend16 (pk : PktName) (v scale : Rat) (s : State) : Host.Outcome State Fault Refusal := appendTo 16 pk v scale s

/-- APPEND.32 (R106). -/
def execAppend32 (pk : PktName) (v scale : Rat) (s : State) : Host.Outcome State Fault Refusal := appendTo 32 pk v scale s

/-- Bytes past the cursor (R111). -/
def Packet.remaining (p : Packet) : Nat := p.message.length - p.index

/-- `READ.w pk, scale, advance` as a step (R107): refusals first, then the bound (R136); a truncated read writes nothing
(R116); the quotient is exact (R115). -/
def readFrom (w : Nat) (pk : PktName) (scale : Rat) (adv : Bool) (s : State) : Host.Outcome State Fault Refusal :=
  withPacket pk s fun p =>
    match checkField w scale with
    | .error r => .refused r
    | .ok () =>
      if p.remaining < w / 8 then raiseError (.truncatedRead w p.remaining) s
      else
        let x := beVal (memRead p.message p.index (w / 8))
        let s' := if adv then s.putPkts (s.pkts.set pk { p with index := p.index + w / 8 }) else s
        returnResult (.value ((x : Rat) / scale)) s'

/-- READ.8 (R108). -/
def execRead8 (pk : PktName) (scale : Rat) (adv : Bool) (s : State) : Host.Outcome State Fault Refusal :=
  readFrom 8 pk scale adv s

/-- READ.16 (R109). -/
def execRead16 (pk : PktName) (scale : Rat) (adv : Bool) (s : State) : Host.Outcome State Fault Refusal :=
  readFrom 16 pk scale adv s

/-- READ.32 (R110). -/
def execRead32 (pk : PktName) (scale : Rat) (adv : Bool) (s : State) : Host.Outcome State Fault Refusal :=
  readFrom 32 pk scale adv s

/-- REMAINING pk (R111). -/
def execRemaining (pk : PktName) (s : State) : Host.Outcome State Fault Refusal :=
  withPacket pk s fun p => returnResult (.count p.remaining) s

end Sys2Proof.Machine
end

