-- ==== Sys2Proof/Machine/Flags.lean ====
section
/-! DEFINITION. Status. The hardware has no flag and no status register (R23); the only status is in what an operation
returns, with the error codes of R130. -/

namespace Sys2Proof.Machine

/-- The error kinds of R130. -/
inductive ErrorKind where
  | frameRejected | truncatedRead | malformedLength
deriving DecidableEq, Repr

/-- The numeric codes of R130 (0 is no error). -/
def ErrorKind.code (e : ErrorKind) : Nat :=
  match e with
  | .frameRejected => 1
  | .truncatedRead => 2
  | .malformedLength => 3

/-- A rejected frame is the `FAILURE` outcome (R131). -/
def DecOutcome.errorKind (o : DecOutcome) : Option ErrorKind :=
  match o with
  | .failure => some .frameRejected
  | .silent | .success _ => none

/-- The error an operation reports, at most one (R136). A `DEC_FEED` has none of its own (R80). -/
def Result.errorKind (r : Result) : Option ErrorKind :=
  match r with
  | .outcome o => o.errorKind
  | .error (.truncatedRead _ _) => some .truncatedRead
  | .error (.malformedLength _) => some .malformedLength
  | .nothing | .outcomes _ | .crc _ | .packet _ | .value _ | .count _ | .bytes _ => none

/-- The error code of a result (R130). -/
def Result.errorCode (r : Result) : Nat :=
  match r.errorKind with
  | some e => e.code
  | none => 0

/-- The phase number, which is the register's code (R11). -/
def phaseCode (ph : Phase) : BitVec 3 :=
  match ph with
  | .start => 0
  | .lenHi => 1
  | .lenLo => 2
  | .payload => 3
  | .crcHi => 4
  | .crcLo => 5
  | .terminate => 6

end Sys2Proof.Machine
end

