-- ==== Sys2Proof/Machine/CrcEngine.lean ====
section
/-! DEFINITION. The CRC Engine (42_crc_engine.md): `CRC16`. -/

namespace Sys2Proof.Machine

/-- The per-byte update (R91); the accumulator has 16 bits, so the shift drops its high byte (R92). -/
def crcStep (rom : Vector U16 256) (acc : U16) (b : Byte) : U16 :=
  romRead rom (loByte ((acc >>> 8) ^^^ zext16 b)) ^^^ (acc <<< 8)

/-- The update over a sequence, first byte first (R90). -/
def crcFrom (rom : Vector U16 256) (acc : U16) (s : Bytes) : U16 :=
  match s with
  | [] => acc
  | b :: t => crcFrom rom (crcStep rom acc b) t

/-- `crc16(s)` (R90): initial value 0, no final exclusive-or (R93). -/
def crc16 (rom : Vector U16 256) (s : Bytes) : U16 := crcFrom rom Config.crcInit s

/-- CRC16 s (R90, R96). -/
def execCrc16 (b : Bytes) (s : State) : Host.Outcome State Fault Refusal :=
  returnResult (.crc (crc16 s.rom b)) s

end Sys2Proof.Machine
end

