-- ==== Sys2Proof/Machine/FrameDecoder.lean ====
section
/-! DEFINITION. The Frame Decoder (41_frame_decoder.md): `DEC_BYTE` and its wire rows, `DEC_FEED`, `DEC_RESET`. -/

namespace Sys2Proof.Machine

/-- Phase 0, START (R71). -/
def phaseStart (b : Byte) (ds : DecState) : DecState :=
  if b = Config.startShort then { ds with phase := .lenLo }
  else if b = Config.startLong then { ds with phase := .lenHi }
  else ds

/-- Phase 1, LEN_HI (R72): an assignment. -/
def phaseLenHi (b : Byte) (ds : DecState) : DecState :=
  { ds with length := zext16 b <<< 8, phase := .lenLo }

/-- Phase 2, LEN_LO (R73): an or into the existing value; phase 3 whatever the length (R83). -/
def phaseLenLo (b : Byte) (ds : DecState) : DecState :=
  { ds with length := ds.length ||| zext16 b, phase := .payload }

/-- Phase 3, PAYLOAD (R74): append first, then test for equality. -/
def phasePayload (b : Byte) (ds : DecState) : DecState :=
  let payload := memAppend ds.payload [b]
  { ds with
    payload := payload
    phase := if payload.length = ds.length.toNat then .crcHi else .payload }

/-- Phase 4, CRC_HI (R75): an assignment. -/
def phaseCrcHi (b : Byte) (ds : DecState) : DecState :=
  { ds with crc := zext16 b <<< 8, phase := .crcLo }

/-- Phase 5, CRC_LO (R76): an or. -/
def phaseCrcLo (b : Byte) (ds : DecState) : DecState :=
  { ds with crc := ds.crc ||| zext16 b, phase := .terminate }

/-- What phase 6, TERMINATE, reports (R77): both conditions for success. -/
def verify (rom : Vector U16 256) (b : Byte) (ds : DecState) : DecOutcome :=
  if b = Config.terminator ∧ crc16 rom ds.payload = ds.crc then .success ⟨ds.payload, 0⟩ else .failure

/-- One byte (R70): the phase before the step selects the rule. The only step without a meaning is a phase 3 append to a
full buffer (R38). -/
def decodeByte (cfg : Config) (rom : Vector U16 256) (b : Byte) (ds : DecState) :
    Except Refusal (DecState × DecOutcome) :=
  match ds.phase with
  | .start => .ok (phaseStart b ds, .silent)
  | .lenHi => .ok (phaseLenHi b ds, .silent)
  | .lenLo => .ok (phaseLenLo b ds, .silent)
  | .payload =>
    if fits cfg.payloadCap (ds.payload.length + 1) then .ok (phasePayload b ds, .silent)
    else .error .payloadOverflow
  | .crcHi => .ok (phaseCrcHi b ds, .silent)
  | .crcLo => .ok (phaseCrcLo b ds, .silent)
  | .terminate => .ok (.fresh, verify rom b ds)

/-- The bytes of a chunk in order, with the outcomes other than `NONE` (R80). -/
def decodeBytes (cfg : Config) (rom : Vector U16 256) (l : Bytes) (ds : DecState) :
    Except Refusal (DecState × List DecOutcome) :=
  match l with
  | [] => .ok (ds, [])
  | b :: t =>
    match decodeByte cfg rom b ds with
    | .error r => .error r
    | .ok (ds', o) =>
      match decodeBytes cfg rom t ds' with
      | .error r => .error r
      | .ok (ds'', os) => .ok (ds'', o.signal ++ os)

/-- One received byte as a step of the block. -/
def receiveByte (b : Byte) (s : State) : Host.Outcome State Fault Refusal :=
  match decodeByte s.cfg s.rom b s.ds with
  | .ok (ds, o) => returnResult (.outcome o) (s.putDs ds)
  | .error r => .refused r

/-- DEC_BYTE b (R70). -/
def execDecByte (b : Byte) (s : State) : Host.Outcome State Fault Refusal := receiveByte b s

/-- START_SHORT: the byte 0x02, read in phase 0 by R71; elsewhere the phase gives it its role (R56). -/
def execStartShort (s : State) : Host.Outcome State Fault Refusal := receiveByte Config.startShort s

/-- START_LONG: the byte 0x03, read in phase 0 by R71; elsewhere the phase gives it its role (R56). -/
def execStartLong (s : State) : Host.Outcome State Fault Refusal := receiveByte Config.startLong s

/-- START_IGNORED: any other byte, ignored in phase 0 (R71, R60). -/
def execStartIgnored (b : Byte) (s : State) : Host.Outcome State Fault Refusal := receiveByte b s

/-- TERMINATOR: the byte 0x03, read in phase 6 by R77; elsewhere the phase gives it its role (R56). -/
def execTerminator (s : State) : Host.Outcome State Fault Refusal := receiveByte Config.terminator s

/-- DEC_FEED s (R80), the whole effect of its bytes; `step` runs it one byte a step (R165; log entry 9). -/
def execDecFeed (l : Bytes) (s : State) : Host.Outcome State Fault Refusal :=
  match decodeBytes s.cfg s.rom l s.ds with
  | .ok (ds, os) => returnResult (.outcomes os) (s.putDs ds)
  | .error r => .refused r

/-- What the first step of an operation runs: a `DEC_FEED` its first byte, every other operation the whole (R165, R4). -/
def firstStep (i : Instr) : Instr :=
  match i with
  | .decFeed l => .decFeed (l.take 1)
  | .startShort | .startLong | .startIgnored _ | .terminator | .decReset | .decByte _ | .crc16 _ | .pktEmpty _
  | .pktFromBytes _ _ | .append8 _ _ _ | .append16 _ _ _ | .append32 _ _ _ | .read8 _ _ _ | .read16 _ _ _
  | .read32 _ _ _ | .remaining _ | .serialize _ | .reset | .pktFromFields _ _ | .reserved _ => i

/-- The bytes an operation leaves for later steps: those of a `DEC_FEED` after its first (R165). -/
def laterBytes (i : Instr) : Bytes :=
  match i with
  | .decFeed l => l.drop 1
  | .startShort | .startLong | .startIgnored _ | .terminator | .decReset | .decByte _ | .crc16 _ | .pktEmpty _
  | .pktFromBytes _ _ | .append8 _ _ _ | .append16 _ _ _ | .append32 _ _ _ | .read8 _ _ _ | .read16 _ _ _
  | .read32 _ _ _ | .remaining _ | .serialize _ | .reset | .pktFromFields _ _ | .reserved _ => []

/-- The outcomes of a feed so far, and those of its next bytes (the `out` of R80). -/
def joinOutcomes (sofar new : Result) : Result :=
  match sofar, new with
  | .outcomes os, .outcomes ps => .outcomes (os ++ ps)
  | _, r => r

/-- The next byte of a `DEC_FEED` in progress (R80, R165). -/
def continueFeed (b : Byte) (s : State) : Host.Outcome State Fault Refusal :=
  match execDecFeed [b] s with
  | .next t => .next (t.putResult (joinOutcomes s.result t.result))
  | .fault f => .fault f
  | .refused r => .refused r

/-- DEC_RESET (R81): no outcome. -/
def execDecReset (s : State) : Host.Outcome State Fault Refusal := returnResult .nothing (s.putDs .fresh)

end Sys2Proof.Machine
end

