-- ==== Sys2Proof/Machine/FrameEncoder.lean ====
section
/-! DEFINITION. The Frame Encoder (44_frame_encoder.md): `SERIALIZE`. -/

namespace Sys2Proof.Machine

/-- Start marker and length (R121, R122): the short form exactly up to `SHORT_MAX`. -/
def frameHeader (n : Nat) : Bytes :=
  if n ≤ Config.shortMax then [Config.startShort, BitVec.ofNat 8 n]
  else [Config.startLong, BitVec.ofNat 8 (n >>> 8), BitVec.ofNat 8 n]

/-- CRC, high byte first, and terminator (R123, R124). -/
def frameTrailer (c : U16) : Bytes := [hiByte c, loByte c, Config.terminator]

/-- `SERIALIZE(s)` (R120); a payload longer than `LEN_MAX` fits neither form (R125). -/
def serializeFrame (rom : Vector U16 256) (l : Bytes) : Except OpError Bytes :=
  if Config.lenMax < l.length then .error (.malformedLength l.length)
  else .ok (frameHeader l.length ++ l ++ frameTrailer (crc16 rom l))

/-- SERIALIZE s or SERIALIZE pk (R120): writes nothing (R126). -/
def execSerialize (src : PayloadArg) (s : State) : Host.Outcome State Fault Refusal :=
  withPayload src s fun l =>
    match serializeFrame s.rom l with
    | .ok f => returnResult (.bytes f) s
    | .error e => raiseError e s

end Sys2Proof.Machine
end

