-- ==== Sys2Proof/Machine/Dispatch.lean ====
section
/-! DEFINITION. One arm per instruction, each one call of its meaning. -/

namespace Sys2Proof.Machine

def exec (i : Instr) (s : State) : Host.Outcome State Fault Refusal :=
  match i with
  | .startShort => Sys2Proof.Machine.execStartShort s
  | .startLong => Sys2Proof.Machine.execStartLong s
  | .startIgnored b => Sys2Proof.Machine.execStartIgnored b s
  | .terminator => Sys2Proof.Machine.execTerminator s
  | .decReset => Sys2Proof.Machine.execDecReset s
  | .decByte b => Sys2Proof.Machine.execDecByte b s
  | .crc16 l => Sys2Proof.Machine.execCrc16 l s
  | .pktEmpty pk => Sys2Proof.Machine.execPktEmpty pk s
  | .pktFromBytes pk l => Sys2Proof.Machine.execPktFromBytes pk l s
  | .append8 pk v scale => Sys2Proof.Machine.execAppend8 pk v scale s
  | .append16 pk v scale => Sys2Proof.Machine.execAppend16 pk v scale s
  | .append32 pk v scale => Sys2Proof.Machine.execAppend32 pk v scale s
  | .read8 pk scale adv => Sys2Proof.Machine.execRead8 pk scale adv s
  | .read16 pk scale adv => Sys2Proof.Machine.execRead16 pk scale adv s
  | .read32 pk scale adv => Sys2Proof.Machine.execRead32 pk scale adv s
  | .remaining pk => Sys2Proof.Machine.execRemaining pk s
  | .serialize src => Sys2Proof.Machine.execSerialize src s
  | .reset => Sys2Proof.Machine.execReset s
  | .decFeed l => Sys2Proof.Machine.execDecFeed l s
  | .pktFromFields pk fields => Sys2Proof.Machine.execPktFromFields pk fields s
  | .reserved cmd => Sys2Proof.Machine.execReserved cmd s

end Sys2Proof.Machine
end

