-- ==== Sys2Proof/Machine/Moves.lean ====
section
/-! DEFINITION. The caller's next move as a step of the block. -/

namespace Sys2Proof.Machine

/-- The caller's next move. With none the block is idle with its state held (R140), which is a step that
runs no operation (log entry 4). -/
def runMove (s : State) : Host.Outcome State Fault Refusal :=
  match s.pending with
  | [] => .next s
  | .take pk k :: rest => takeOffered pk k (s.putPending rest)
  | .overlapping r₁ r₂ :: rest => overlapRequests r₁ r₂ (s.putPending rest)
  | .call r :: rest =>
    match decode s.ds.phase r with
    | .ok i => exec (firstStep i) ((s.putPending rest).putFeeding (laterBytes i))
    | .error e => refuseRequest e

end Sys2Proof.Machine
end

