-- ==== Sys2Proof/Machine/Step.lean ====
section
/-! DEFINITION. One step: the caller's next move, run from its start to its end (R4), but for a `DEC_FEED`, which is one
step a byte (R165). -/

namespace Sys2Proof.Machine

/-- One step: the next byte of a `DEC_FEED` in progress, or else the caller's next move (R4, R39, R165). -/
def step (s : State) : Host.Outcome State Fault Refusal :=
  match s.feeding with
  | b :: rest => continueFeed b (s.putFeeding rest)
  | [] => runMove s

/-- `s` with the table word `w` as the caller's next move, so that the next step runs it (log entry 7). -/
def State.withFetchWord (s : State) (nbits w : Nat) : State :=
  if nbits = 8 ∧ w < 256 then placeTableWord (BitVec.ofNat 8 w) s else s

end Sys2Proof.Machine
end

