-- ==== Sys2Proof/Safety.lean ====
section
/-! DEFINITION. What claims about the block are said in: the invariant, the hang of R141, good runs, and which operations
are on the decoder and on which packet. -/

namespace Sys2Proof.Machine

/-- The decoder's invariants (R84), and the capacity (R38). -/
structure DecState.Inv (cfg : Config) (d : DecState) : Prop where
  /-- R84 (a). -/
  startFresh : d.phase = .start → d = .fresh
  /-- R84 (b). -/
  headerEmpty : d.phase = .lenHi ∨ d.phase = .lenLo → d.payload = [] ∧ d.crc = 0
  /-- R84 (c). -/
  payloadShort : d.phase = .payload → 1 ≤ d.length.toNat → d.payload.length < d.length.toNat
  /-- R84 (d). -/
  payloadWhole : d.phase = .crcHi ∨ d.phase = .crcLo ∨ d.phase = .terminate →
    d.payload.length = d.length.toNat ∧ 1 ≤ d.length.toNat
  /-- R84 (e). -/
  lenHiZero : d.phase = .lenHi → d.length = 0
  /-- R84 (e). -/
  lenLoLow : d.phase = .lenLo → loByte d.length = 0
  /-- R84 (f). -/
  crcLoLow : d.phase = .crcLo → loByte d.crc = 0
  /-- R38. -/
  capacity : fits cfg.payloadCap d.payload.length = true

/-- The cursor never exceeds the message length (R17), and the message fits `MSG_CAP` (R38). -/
structure Packet.Inv (cfg : Config) (p : Packet) : Prop where
  cursor : p.index ≤ p.message.length
  capacity : fits cfg.msgCap p.message.length = true

/-- The invariant every step keeps. -/
structure State.Inv (s : State) : Prop where
  /-- A finite `PAYLOAD_CAP` is at least 65535 (R3). -/
  config : s.cfg.wf = true
  /-- R84. -/
  decoder : s.ds.Inv s.cfg
  /-- Packet names strictly rise. -/
  canonical : s.pkts.wf = true
  /-- R17, of every packet that exists. -/
  packets : ∀ e ∈ s.pkts, e.2.Inv s.cfg
  /-- A packet on offer has its cursor at 0 (R18). -/
  offered : ∀ p ∈ s.result.offered, p.index = 0
  /-- While a `DEC_FEED` is in progress the result holds its outcomes so far (R80, R165). -/
  feeding : s.feeding ≠ [] → ∃ os, s.result = .outcomes os

/-- The one state to be counted as a hang (R83, R141): phase 3 with a declared length of 0. -/
def DecState.hung (d : DecState) : Prop := d.phase = .payload ∧ d.length = 0

/-- A good run of `k` steps: no refusal (R141: errors are results, and a run with errors is good). -/
def goodRun (k : Nat) (s : State) : Prop := ∃ t, Sys2Proof.core.run k s = .next t

/-- The operations on `DS` (R15): `DEC_BYTE` with its wire rows, `DEC_FEED`, `DEC_RESET`, `RESET`. -/
def onDecoder (i : Instr) : Bool :=
  match i with
  | .startShort | .startLong | .startIgnored _ | .terminator | .decByte _ | .decFeed _ | .decReset | .reset => true
  | .crc16 _ | .pktEmpty _ | .pktFromBytes _ _ | .append8 _ _ _ | .append16 _ _ _ | .append32 _ _ _
  | .read8 _ _ _ | .read16 _ _ _ | .read32 _ _ _ | .remaining _ | .serialize _ | .pktFromFields _ _ | .reserved _ => false

/-- How an operation treats the packet named `n` (R17). -/
inductive PacketUse where
  /-- Creates it: the whole message and cursor 0. -/
  | creates
  /-- Appends at the end of its message. -/
  | appends
  /-- May move its cursor. -/
  | moves
  /-- Ends its existence (R150). -/
  | discards
  /-- Leaves it alone. -/
  | leaves
deriving DecidableEq, Repr

/-- What `i` does to the packet named `n`: its message is written only by the constructors and `APPEND`, its cursor only by
the constructors and by `READ` with advance (R17). -/
def packetUse (i : Instr) (n : PktName) : PacketUse :=
  match i with
  | .pktEmpty pk | .pktFromBytes pk _ | .pktFromFields pk _ => if pk = n then .creates else .leaves
  | .append8 pk _ _ | .append16 pk _ _ | .append32 pk _ _ => if pk = n then .appends else .leaves
  | .read8 pk _ adv | .read16 pk _ adv | .read32 pk _ adv => if adv = true ∧ pk = n then .moves else .leaves
  | .reset => .discards
  | .startShort | .startLong | .startIgnored _ | .terminator | .decByte _ | .decFeed _ | .decReset | .crc16 _
  | .remaining _ | .serialize _ | .reserved _ => .leaves

end Sys2Proof.Machine
end

