-- ==== Sys2Proof/Certificates/Slice0/Obligations.lean ====
section
/-! DEFINITION. The statements for the provers. Each docstring names the rule of spec/ it formalises; where a rule is the
spec's own decision or inference, or a clause is the model's choice, the docstring says so. -/

open Sys2Proof Sys2Proof.Machine

/-! Reset. -/

/-- R25: the state after reset. That `crc` is 0 and the table's contents are the spec's decisions (D15, D3); that both
capacities are unbounded is log entry 2 (R3, decision D5); the last two clauses are about the model's own fields (log
entries 4 and 9). -/
def Obligations.ResetLeavesFreshState : Prop :=
  State.reset.ds = ⟨.start, [], 0, 0⟩ ∧ (∀ n, State.reset.pkts.get n = none) ∧ State.reset.rom = crcTable
    ∧ State.reset.result = .nothing ∧ State.reset.cfg = ⟨none, none⟩ ∧ State.reset.pending = []
    ∧ State.reset.feeding = []

/-- R150, the spec's decision D15: `RESET` from every state. -/
def Obligations.ResetClearsBlock : Prop :=
  (∀ ph, decode ph (.command 0xF0 .unit) = .ok .reset)
    ∧ ∀ s : State, exec .reset s = .next { s with ds := ⟨.start, [], 0, 0⟩, pkts := [], result := .nothing }

/-- R81, the spec's decision D15: `DEC_RESET` from every state, packets kept. -/
def Obligations.DecResetWritesFresh : Prop :=
  (∀ ph, decode ph (.command 0x10 .unit) = .ok .decReset)
    ∧ ∀ s : State, exec .decReset s = .next { s with ds := ⟨.start, [], 0, 0⟩, result := .nothing }

/-! The seven phases: the whole next state of `DEC_BYTE`. -/

/-- R71: phase 0. Only `DS.phase` is written, and only for the two start markers. -/
def Obligations.StartPhaseReadsMarker : Prop :=
  ∀ (s : State) (b : Byte), s.ds.phase = .start →
    exec (.decByte b) s = .next { s with
      ds := { s.ds with phase := if b = 0x02 then .lenLo else if b = 0x03 then .lenHi else .start }
      result := .outcome .silent }

/-- R72: phase 1. An assignment, for every byte value. -/
def Obligations.LenHiPhaseAssignsHighByte : Prop :=
  ∀ (s : State) (b : Byte), s.ds.phase = .lenHi →
    exec (.decByte b) s = .next { s with
      ds := { s.ds with length := b.setWidth 16 <<< 8, phase := .lenLo }
      result := .outcome .silent }

/-- R73: phase 2. An or, for every byte value; phase 3 whatever the resulting length. -/
def Obligations.LenLoPhaseOrsLowByte : Prop :=
  ∀ (s : State) (b : Byte), s.ds.phase = .lenLo →
    exec (.decByte b) s = .next { s with
      ds := { s.ds with length := s.ds.length ||| b.setWidth 16, phase := .payload }
      result := .outcome .silent }

/-- R74: phase 3. Append first, then test for equality. The hypothesis is R38's: a finite `PAYLOAD_CAP` is not reached. -/
def Obligations.PayloadPhaseAppendsThenTests : Prop :=
  ∀ (s : State) (b : Byte), s.ds.phase = .payload → (∀ c, s.cfg.payloadCap = some c → s.ds.payload.length < c) →
    exec (.decByte b) s = .next { s with
      ds := { s.ds with
        payload := s.ds.payload ++ [b]
        phase := if (s.ds.payload ++ [b]).length = s.ds.length.toNat then .crcHi else .payload }
      result := .outcome .silent }

/-- R75: phase 4. An assignment. -/
def Obligations.CrcHiPhaseAssignsHighByte : Prop :=
  ∀ (s : State) (b : Byte), s.ds.phase = .crcHi →
    exec (.decByte b) s = .next { s with
      ds := { s.ds with crc := b.setWidth 16 <<< 8, phase := .crcLo }
      result := .outcome .silent }

/-- R76: phase 5. An or. -/
def Obligations.CrcLoPhaseOrsLowByte : Prop :=
  ∀ (s : State) (b : Byte), s.ds.phase = .crcLo →
    exec (.decByte b) s = .next { s with
      ds := { s.ds with crc := s.ds.crc ||| b.setWidth 16, phase := .terminate }
      result := .outcome .silent }

/-- R77: phase 6. Success needs both the terminator and the checksum; `DS` is `FRESH` on success and on failure alike. -/
def Obligations.TerminatePhaseVerifies : Prop :=
  ∀ (s : State) (b : Byte), s.ds.phase = .terminate →
    exec (.decByte b) s = .next { s with
      ds := ⟨.start, [], 0, 0⟩
      result := .outcome
        (if b = 0x03 ∧ crc16 s.rom s.ds.payload = s.ds.crc then .success ⟨s.ds.payload, 0⟩ else .failure) }

/-- R38 and R134 (decision D5): a full payload buffer refuses the byte step, however the byte comes; a message over its
capacity refuses the constructor or the append, alone or within `PKT_FROM_FIELDS`. That one refused byte refuses the whole
of `DEC_FEED` is the model's choice (log entry 9). -/
def Obligations.CapacityOverflowIsRefused : Prop :=
  (∀ (s : State) (b : Byte) (c : Nat), s.ds.phase = .payload → s.cfg.payloadCap = some c →
      s.ds.payload.length = c →
      ∀ i ∈ [.decByte b, .startShort, .startLong, .startIgnored b, .terminator], exec i s = .refused .payloadOverflow)
    ∧ (∀ (s t : State) (l m : Bytes) (b : Byte) (c : Nat), exec (.decFeed l) s = .next t → t.ds.phase = .payload →
      s.cfg.payloadCap = some c → t.ds.payload.length = c →
      exec (.decFeed (l ++ b :: m)) s = .refused .payloadOverflow)
    ∧ (∀ (s : State) (pk : PktName) (l : Bytes) (c : Nat), s.cfg.msgCap = some c → c < l.length →
      exec (.pktFromBytes pk l) s = .refused .msgOverflow)
    ∧ ∀ (w : FieldWidth) (v scale : Rat) (p : Packet) (pk : PktName) (c : Nat), 0 < scale → 0 ≤ trunc (v * scale) →
      trunc (v * scale) ≤ 2 ^ w.bits - 1 → c < p.message.length + w.bits / 8 →
      (∀ s : State, s.pkts.get pk = some p → s.cfg.msgCap = some c →
        exec (appendInstr w pk v scale) s = .refused .msgOverflow)
      ∧ ∀ (s t : State) (fields rest : List FieldArg), exec (.pktFromFields pk fields) s = .next t →
        t.pkts.get pk = some p → s.cfg.msgCap = some c →
        exec (.pktFromFields pk (fields ++ ⟨w.bits, v, scale⟩ :: rest)) s = .refused .msgOverflow

/-! The wire rows of the table. -/

/-- R53: the start rows in phase 0. -/
def Obligations.StartMarkersSelectTheForm : Prop :=
  ∀ s : State, s.ds.phase = .start →
    exec .startShort s = .next { s with ds := { s.ds with phase := .lenLo }, result := .outcome .silent }
      ∧ exec .startLong s = .next { s with ds := { s.ds with phase := .lenHi }, result := .outcome .silent }
      ∧ ∀ b : Byte, b ≠ 0x02 → b ≠ 0x03 → exec (.startIgnored b) s = .next { s with result := .outcome .silent }

/-- R56 and R77: TERMINATOR in phase 6; and in every phase a wire row is the `DEC_BYTE` step on its byte. That the rows run
outside their own phase as plain bytes is R56's inference. -/
def Obligations.WireRowsAreByteSteps : Prop :=
  (∀ s : State, s.ds.phase = .terminate →
      exec .terminator s = .next { s with
        ds := ⟨.start, [], 0, 0⟩
        result := .outcome (if crc16 s.rom s.ds.payload = s.ds.crc then .success ⟨s.ds.payload, 0⟩ else .failure) })
    ∧ ∀ (s : State) (b : Byte), exec .startShort s = exec (.decByte 0x02) s ∧ exec .startLong s = exec (.decByte 0x03) s
      ∧ exec .terminator s = exec (.decByte 0x03) s ∧ exec (.startIgnored b) s = exec (.decByte b) s

/-- R56, an inference of the spec's: only the phase gives a received byte its role. -/
def Obligations.PhaseGivesWireByteItsRole : Prop :=
  decode .start (.wire 0x02) = .ok .startShort ∧ decode .start (.wire 0x03) = .ok .startLong
    ∧ (∀ b : Byte, b ≠ 0x02 → b ≠ 0x03 → decode .start (.wire b) = .ok (.startIgnored b))
    ∧ decode .terminate (.wire 0x03) = .ok .terminator
    ∧ (∀ b : Byte, b ≠ 0x03 → decode .terminate (.wire b) = .ok (.decByte b))
    ∧ ∀ (ph : Phase) (b : Byte), ph ≠ .start → ph ≠ .terminate → decode ph (.wire b) = .ok (.decByte b)

/-! What follows from the phases. -/

/-- R70 and R80: with `PAYLOAD_CAP` unbounded (R3) every byte step and every feed completes and writes `DS` only;
`FrameRejected` is reported in phase 6 only, with `DS` fresh; a feed returns no `NONE`. -/
def Obligations.ByteAndFeedAlwaysComplete : Prop :=
  (∀ (s : State) (b : Byte), s.cfg.payloadCap = none →
      ∃ d o, exec (.decByte b) s = .next { s with ds := d, result := .outcome o }
        ∧ (o = .failure → s.ds.phase = .terminate ∧ d = ⟨.start, [], 0, 0⟩))
    ∧ ∀ (s : State) (l : Bytes), s.cfg.payloadCap = none →
      ∃ d os, exec (.decFeed l) s = .next { s with ds := d, result := .outcomes os } ∧ .silent ∉ os

/-- R79: a signal comes at the terminating byte and at no other. -/
def Obligations.SilenceExceptAtTerminatingByte : Prop :=
  ∀ (s t : State) (b : Byte), exec (.decByte b) s = .next t →
    (s.ds.phase ≠ .terminate → t.result = .outcome .silent)
      ∧ (s.ds.phase = .terminate → t.result = .outcome .failure ∨ ∃ p, t.result = .outcome (.success p))

/-- R78: after a completed frame `DS` is as after reset, and what comes next does not depend on what came before. -/
def Obligations.EveryFrameEndsFresh : Prop :=
  (∀ (s t : State) (b : Byte), exec (.decByte b) s = .next t → t.result ≠ .outcome .silent →
      t.ds = State.reset.ds)
    ∧ ∀ (s₁ s₂ t₁ t₂ u₁ : State) (b₁ b₂ : Byte) (l : Bytes), s₁.rom = s₂.rom → s₁.cfg = s₂.cfg →
      exec (.decByte b₁) s₁ = .next t₁ → t₁.result ≠ .outcome .silent →
      exec (.decByte b₂) s₂ = .next t₂ → t₂.result ≠ .outcome .silent →
      exec (.decFeed l) t₁ = .next u₁ →
      ∃ u₂, exec (.decFeed l) t₂ = .next u₂ ∧ u₂.result = u₁.result ∧ u₂.ds = u₁.ds

/-- R80 (decision D10): a feed is its bytes in order, and returns the outcomes other than `NONE`. -/
def Obligations.FeedIsByteSequence : Prop :=
  (∀ s : State, exec (.decFeed []) s = .next { s with result := .outcomes [] })
    ∧ ∀ (s s₁ s₂ : State) (b : Byte) (l : Bytes) (o : DecOutcome) (os : List DecOutcome),
      exec (.decByte b) s = .next s₁ → s₁.result = .outcome o →
      exec (.decFeed l) s₁ = .next s₂ → s₂.result = .outcomes os →
      exec (.decFeed (b :: l)) s = .next { s₂ with result := .outcomes ((if o = .silent then [] else [o]) ++ os) }

/-- R82: a feed of `l ++ m` is the feed of `l` and then of `m`, with the same effect and the same outcomes. -/
def Obligations.FeedSplitsAnywhere : Prop :=
  (∀ (s s₁ s₂ : State) (l m : Bytes) (os₁ os₂ : List DecOutcome),
      exec (.decFeed l) s = .next s₁ → s₁.result = .outcomes os₁ →
      exec (.decFeed m) s₁ = .next s₂ → s₂.result = .outcomes os₂ →
      exec (.decFeed (l ++ m)) s = .next { s₂ with result := .outcomes (os₁ ++ os₂) })
    ∧ ∀ (s t : State) (l m : Bytes), exec (.decFeed (l ++ m)) s = .next t →
      ∃ s₁ s₂ os₁ os₂, exec (.decFeed l) s = .next s₁ ∧ s₁.result = .outcomes os₁
        ∧ exec (.decFeed m) s₁ = .next s₂ ∧ s₂.result = .outcomes os₂
        ∧ t = { s₂ with result := .outcomes (os₁ ++ os₂) }

/-- R165 (decision D21): a feed of `k` bytes is `k` steps. For every `j` from 1 to `k`, after `j` steps the machine is where
`DEC_FEED` of the first `j` bytes leaves it, with the other bytes still to be fed; and it is the same, but for what is
returned, when each byte is presented by itself, on the wire or as a `DEC_BYTE` command. That the steps of a feed keep the
bytes still to be fed in a field is the model's choice (log entry 9). -/
def Obligations.FeedIsOneStepPerByte : Prop :=
  (∀ (s t : State) (l : Bytes) (rest : List Input) (j : Nat), s.feeding = [] → s.pending = .call (.feed l) :: rest →
      1 ≤ j → j ≤ l.length → exec (.decFeed (l.take j)) s = .next t →
      Sys2Proof.core.run j s = .next { t with pending := rest, feeding := l.drop j })
    ∧ ∀ (present : Byte → Request) (s t : State) (l : Bytes) (rest : List Input),
      (∀ b, present b = .wire b ∨ present b = .command 0x20 (.byte b)) → s.feeding = [] →
      s.pending = l.map (fun b => .call (present b)) ++ rest →
      exec (.decFeed l) s = .next t →
      ∃ r, Sys2Proof.core.run l.length s = .next { s with ds := t.ds, result := r, pending := rest }

/-- R83 (decision D4) and R141: a declared length of 0 is entered by either form, swallows every later byte without a
signal, and is left by `DEC_RESET` and `RESET` only; the encoder sends such a frame for an empty payload. -/
def Obligations.ZeroLengthHangs : Prop :=
  (∀ s : State, s.ds = ⟨.start, [], 0, 0⟩ →
      exec (.decFeed [0x02, 0x00]) s = .next { s with ds := ⟨.payload, [], 0, 0⟩, result := .outcomes [] }
        ∧ exec (.decFeed [0x03, 0x00, 0x00]) s = .next { s with ds := ⟨.payload, [], 0, 0⟩, result := .outcomes [] })
    ∧ (∀ (s : State) (l : Bytes), s.ds.hung → s.cfg.payloadCap = none →
      exec (.decFeed l) s
        = .next { s with ds := { s.ds with payload := s.ds.payload ++ l }, result := .outcomes [] })
    ∧ (∀ (s t : State) (i : Instr), s.ds.hung → exec i s = .next t → i ≠ .decReset → i ≠ .reset → t.ds.hung)
    ∧ (∀ (s t : State) (i : Instr), i = .decReset ∨ i = .reset → exec i s = .next t → t.ds = ⟨.start, [], 0, 0⟩)
    ∧ ∀ (s t : State), exec (.serialize (.lit [])) s = .next t → t.result = .bytes [0x02, 0x00, 0x00, 0x00, 0x03]

/-- R57, R61 and R156, inferences of the spec's: a frame attempt of declared length 1 or more, in either form and canonical
or not, consumes exactly its payload, two CRC bytes and one more byte, and signals at that byte only. -/
def Obligations.FrameAttemptSignalsAtItsLastByte : Prop :=
  ∀ (s : State) (hdr l : Bytes) (c₁ c₂ b : Byte), s.ds = ⟨.start, [], 0, 0⟩ → s.cfg.wf = true → 1 ≤ l.length →
    (hdr = [0x02, BitVec.ofNat 8 l.length] ∧ l.length ≤ 255
      ∨ hdr = [0x03, BitVec.ofNat 8 (l.length / 256), BitVec.ofNat 8 (l.length % 256)] ∧ l.length ≤ 65535) →
    exec (.decFeed (hdr ++ l ++ [c₁, c₂])) s
        = .next { s with
            ds := ⟨.terminate, l, BitVec.ofNat 16 l.length, c₁.setWidth 16 <<< 8 ||| c₂.setWidth 16⟩
            result := .outcomes [] }
      ∧ exec (.decFeed (hdr ++ l ++ [c₁, c₂, b])) s
        = .next { s with
            result := .outcomes
              [if b = 0x03 ∧ crc16 s.rom l = (c₁.setWidth 16 <<< 8 ||| c₂.setWidth 16) then .success ⟨l, 0⟩
                else .failure] }

/-- R86, an inference of the spec's, for every `CRC_TABLE`: a serialized payload of 1 to 65535 bytes decodes to itself, at
its last byte; an empty one does not. -/
def Obligations.SerializedFrameDecodes : Prop :=
  ∀ s : State, s.ds = ⟨.start, [], 0, 0⟩ → s.cfg.wf = true →
    (∀ l : Bytes, 1 ≤ l.length → l.length ≤ 65535 →
      ∃ (f : Bytes) (b : Byte), exec (.serialize (.lit l)) s = .next { s with result := .bytes (f ++ [b]) }
        ∧ (∃ d, exec (.decFeed f) s = .next { s with ds := d, result := .outcomes [] })
        ∧ exec (.decFeed (f ++ [b])) s = .next { s with result := .outcomes [.success ⟨l, 0⟩] })
    ∧ ∃ f, exec (.serialize (.lit [])) s = .next { s with result := .bytes f }
      ∧ ∃ d, d ≠ ⟨.start, [], 0, 0⟩ ∧ exec (.decFeed f) s = .next { s with ds := d, result := .outcomes [] }

/-- R87: a valid frame with another CRC byte or bytes is rejected, for every `CRC_TABLE`. -/
def Obligations.CorruptedCrcByteIsRejected : Prop :=
  ∀ (s : State) (l pre : Bytes) (hi lo hi' lo' : Byte), s.ds = ⟨.start, [], 0, 0⟩ → s.cfg.wf = true →
    1 ≤ l.length → l.length ≤ 65535 →
    exec (.serialize (.lit l)) s = .next { s with result := .bytes (pre ++ [hi, lo, 0x03]) } →
    hi' ≠ hi ∨ lo' ≠ lo →
    exec (.decFeed (pre ++ [hi', lo', 0x03])) s = .next { s with result := .outcomes [.failure] }

/-! The CRC Engine. -/

/-- R90 and R91: the checksum, byte by byte, for every table; nothing is written. -/
def Obligations.Crc16ReturnsChecksum : Prop :=
  (∀ s : State, exec (.crc16 []) s = .next { s with result := .crc 0 })
    ∧ (∀ (s : State) (l : Bytes), ∃ c, exec (.crc16 l) s = .next { s with result := .crc c })
    ∧ ∀ (s : State) (l : Bytes) (b : Byte) (c e : U16), exec (.crc16 l) s = .next { s with result := .crc c } →
      s.rom[(((c >>> 8) ^^^ b.setWidth 16) &&& 0xFF).toNat]? = some e →
      exec (.crc16 (l ++ [b])) s = .next { s with result := .crc (e ^^^ ((c <<< 8) &&& 0xFFFF)) }

/-- R95, which the spec takes from general knowledge (decision D3): the default table is the one its generation rule gives,
a step with it is eight steps of polynomial division, and the checksum is linear over exclusive-or. With any table whose
first entry is 0 a leading zero byte changes nothing, which R90 marks as derived. -/
def Obligations.DefaultTableDividesByPolynomial : Prop :=
  (∀ i : Byte, crcTable[i.toNat]? = some (crcGenBits 8 (i.setWidth 16 <<< 8)))
    ∧ (∀ (s t : State) (l : Bytes) (b : Byte) (c : U16), s.rom = crcTable →
      exec (.crc16 l) s = .next { s with result := .crc c } → exec (.crc16 (l ++ [b])) s = .next t →
      t.result = .crc (crcGenBits 8 (c ^^^ (b.setWidth 16 <<< 8))))
    ∧ (∀ l m : Bytes, l.length = m.length →
      crc16 crcTable (List.zipWith (· ^^^ ·) l m) = crc16 crcTable l ^^^ crc16 crcTable m)
    ∧ ∀ (s : State) (l : Bytes), s.rom[0]? = some 0 → exec (.crc16 (0x00 :: l)) s = exec (.crc16 l) s

/-- R97, which the spec takes from general knowledge: with the default table, replacing one byte changes the checksum. -/
def Obligations.DefaultTableDetectsByteChange : Prop :=
  ∀ (s : State) (pre post : Bytes) (b b' : Byte), s.rom = crcTable → b ≠ b' →
    ∃ c c', exec (.crc16 (pre ++ b :: post)) s = .next { s with result := .crc c }
      ∧ exec (.crc16 (pre ++ b' :: post)) s = .next { s with result := .crc c' } ∧ c ≠ c'

/-! The Field Codec. -/

/-- R100: `PKT_EMPTY` creates the packet and nothing else; `REMAINING` of it is 0. -/
def Obligations.PktEmptyCreates : Prop :=
  ∀ (s : State) (pk : PktName),
    exec (.pktEmpty pk) s = .next { s with pkts := s.pkts.set pk ⟨[], 0⟩, result := .packet ⟨[], 0⟩ }
      ∧ ∀ t u, exec (.pktEmpty pk) s = .next t → exec (.remaining pk) t = .next u → u.result = .count 0

/-- R101 (the cursor's 0 is decision D8): `PKT_FROM_BYTES`, whenever the bytes fit `MSG_CAP`. -/
def Obligations.PktFromBytesCreates : Prop :=
  ∀ (s : State) (pk : PktName) (l : Bytes), (∀ c, s.cfg.msgCap = some c → l.length ≤ c) →
    exec (.pktFromBytes pk l) s = .next { s with pkts := s.pkts.set pk ⟨l, 0⟩, result := .packet ⟨l, 0⟩ }

/-- R102 (decision D20): `PKT_FROM_FIELDS` of legal fields concatenates their bytes in list order, whenever they fit
`MSG_CAP` (R38). -/
def Obligations.PktFromFieldsConcatenates : Prop :=
  ∀ (s : State) (pk : PktName) (fields : List FieldArg),
    (∀ f ∈ fields, f.width ∈ [8, 16, 32] ∧ 0 < f.scale ∧ 0 ≤ trunc (f.value * f.scale)
      ∧ trunc (f.value * f.scale) ≤ 2 ^ f.width - 1) →
    let m := fields.flatMap fun f => beBytes (f.width / 8) (trunc (f.value * f.scale)).toNat
    (∀ c, s.cfg.msgCap = some c → m.length ≤ c) →
    exec (.pktFromFields pk fields) s = .next { s with pkts := s.pkts.set pk ⟨m, 0⟩, result := .packet ⟨m, 0⟩ }

/-- R102 and R65 (decision D20): one more triple is one more `APPEND`, refused when the append is; and a refusal of a first
part of the list is a refusal of the whole, with the same reason. -/
def Obligations.PktFromFieldsIsAppends : Prop :=
  (∀ (s : State) (pk : PktName), exec (.pktFromFields pk []) s = exec (.pktEmpty pk) s)
    ∧ (∀ (s s₁ s₂ : State) (pk : PktName) (fields : List FieldArg) (w : FieldWidth) (v scale : Rat),
      exec (.pktFromFields pk fields) s = .next s₁ → exec (appendInstr w pk v scale) s₁ = .next s₂ →
      ∃ p, s₂.pkts.get pk = some p
        ∧ exec (.pktFromFields pk (fields ++ [⟨w.bits, v, scale⟩])) s = .next { s₂ with result := .packet p })
    ∧ (∀ (s s₁ : State) (pk : PktName) (fields : List FieldArg) (w : FieldWidth) (v scale : Rat) (r : Refusal),
      exec (.pktFromFields pk fields) s = .next s₁ → exec (appendInstr w pk v scale) s₁ = .refused r →
      exec (.pktFromFields pk (fields ++ [⟨w.bits, v, scale⟩])) s = .refused r)
    ∧ ∀ (s : State) (pk : PktName) (fields rest : List FieldArg) (r : Refusal),
      exec (.pktFromFields pk fields) s = .refused r → exec (.pktFromFields pk (fields ++ rest)) s = .refused r

/-- 00_scope.md 6.2: `trunc` rounds toward zero. -/
def Obligations.TruncRoundsTowardZero : Prop :=
  ∀ x : Rat, (0 ≤ x → trunc x = ⌊x⌋) ∧ (x ≤ 0 → trunc x = ⌈x⌉)

/-- R104: `APPEND.8`, in range, and out of it the refusal (R114, decision D7). The hypothesis on `MSG_CAP` is R38's. -/
def Obligations.Append8StoresByte : Prop :=
  ∀ (s : State) (pk : PktName) (p : Packet) (v scale : Rat), s.pkts.get pk = some p → 0 < scale →
    (∀ x : Nat, trunc (v * scale) = (x : Int) → x ≤ 255 →
      (∀ c, s.cfg.msgCap = some c → p.message.length + 1 ≤ c) →
      exec (.append8 pk v scale) s = .next { s with
        pkts := s.pkts.set pk { p with message := p.message ++ [BitVec.ofNat 8 x] }
        result := .nothing })
    ∧ (trunc (v * scale) < 0 ∨ 255 < trunc (v * scale) → exec (.append8 pk v scale) s = .refused .fieldRange)

/-- R105: `APPEND.16`, in range, and out of it the refusal (R114, decision D7). The hypothesis on `MSG_CAP` is R38's. -/
def Obligations.Append16StoresTwoBytes : Prop :=
  ∀ (s : State) (pk : PktName) (p : Packet) (v scale : Rat), s.pkts.get pk = some p → 0 < scale →
    (∀ x : Nat, trunc (v * scale) = (x : Int) → x ≤ 65535 →
      (∀ c, s.cfg.msgCap = some c → p.message.length + 2 ≤ c) →
      exec (.append16 pk v scale) s = .next { s with
        pkts := s.pkts.set pk { p with message := p.message ++ [BitVec.ofNat 8 (x >>> 8), BitVec.ofNat 8 (x &&& 0xFF)] }
        result := .nothing })
    ∧ (trunc (v * scale) < 0 ∨ 65535 < trunc (v * scale) → exec (.append16 pk v scale) s = .refused .fieldRange)

/-- R106: `APPEND.32`, in range, and out of it the refusal (R114, decision D7). The hypothesis on `MSG_CAP` is R38's. -/
def Obligations.Append32StoresFourBytes : Prop :=
  ∀ (s : State) (pk : PktName) (p : Packet) (v scale : Rat), s.pkts.get pk = some p → 0 < scale →
    (∀ x : Nat, trunc (v * scale) = (x : Int) → x ≤ 4294967295 →
      (∀ c, s.cfg.msgCap = some c → p.message.length + 4 ≤ c) →
      exec (.append32 pk v scale) s = .next { s with
        pkts := s.pkts.set pk { p with message := p.message ++
          [BitVec.ofNat 8 (x >>> 24), BitVec.ofNat 8 ((x >>> 16) &&& 0xFF), BitVec.ofNat 8 ((x >>> 8) &&& 0xFF),
            BitVec.ofNat 8 (x &&& 0xFF)] }
        result := .nothing })
    ∧ (trunc (v * scale) < 0 ∨ 4294967295 < trunc (v * scale) → exec (.append32 pk v scale) s = .refused .fieldRange)

/-- R108: `READ.8` with a byte at the cursor, and without one (that nothing is written then is R137). -/
def Obligations.Read8ReturnsByte : Prop :=
  ∀ (s : State) (pk : PktName) (p : Packet) (scale : Rat) (adv : Bool), s.pkts.get pk = some p → 0 < scale →
    (∀ b : Byte, p.message[p.index]? = some b →
      exec (.read8 pk scale adv) s = .next { s with
        pkts := if adv then s.pkts.set pk { p with index := p.index + 1 } else s.pkts
        result := .value ((b.toNat : Rat) / scale) })
    ∧ (p.message.length - p.index < 1 →
      exec (.read8 pk scale adv) s
        = .next { s with result := .error (.truncatedRead 8 (p.message.length - p.index)) })

/-- R109: `READ.16` with two bytes at the cursor, big-endian, and without (that nothing is written then is R137). -/
def Obligations.Read16ReturnsTwoBytes : Prop :=
  ∀ (s : State) (pk : PktName) (p : Packet) (scale : Rat) (adv : Bool), s.pkts.get pk = some p → 0 < scale →
    (∀ b₀ b₁ : Byte, p.message[p.index]? = some b₀ → p.message[p.index + 1]? = some b₁ →
      exec (.read16 pk scale adv) s = .next { s with
        pkts := if adv then s.pkts.set pk { p with index := p.index + 2 } else s.pkts
        result := .value ((b₀.toNat * 256 + b₁.toNat : Nat) / scale) })
    ∧ (p.message.length - p.index < 2 →
      exec (.read16 pk scale adv) s
        = .next { s with result := .error (.truncatedRead 16 (p.message.length - p.index)) })

/-- R110: `READ.32` with four bytes at the cursor, big-endian, and without (that nothing is written then is R137). -/
def Obligations.Read32ReturnsFourBytes : Prop :=
  ∀ (s : State) (pk : PktName) (p : Packet) (scale : Rat) (adv : Bool), s.pkts.get pk = some p → 0 < scale →
    (∀ b₀ b₁ b₂ b₃ : Byte, p.message[p.index]? = some b₀ → p.message[p.index + 1]? = some b₁ →
      p.message[p.index + 2]? = some b₂ → p.message[p.index + 3]? = some b₃ →
      exec (.read32 pk scale adv) s = .next { s with
        pkts := if adv then s.pkts.set pk { p with index := p.index + 4 } else s.pkts
        result := .value
          ((b₀.toNat * 2 ^ 24 + b₁.toNat * 2 ^ 16 + b₂.toNat * 2 ^ 8 + b₃.toNat : Nat) / scale) })
    ∧ (p.message.length - p.index < 4 →
      exec (.read32 pk scale adv) s
        = .next { s with result := .error (.truncatedRead 32 (p.message.length - p.index)) })

/-- R112, R117, R153 and U14, U5, U6 (decisions D6, D19, D12): a scale of 0 or below, a width outside 8, 16, 32 and a packet
never created are refusals, whatever the bound says (R136). -/
def Obligations.FieldDomainIsRefused : Prop :=
  (∀ (s : State) (pk : PktName) (p : Packet) (v scale : Rat) (adv : Bool) (w : FieldWidth), s.pkts.get pk = some p →
      scale ≤ 0 → exec (appendInstr w pk v scale) s = .refused .badScale
        ∧ exec (readInstr w pk scale adv) s = .refused .badScale)
    ∧ (∀ (s t : State) (pk : PktName) (fields rest : List FieldArg) (f : FieldArg),
      exec (.pktFromFields pk fields) s = .next t → f.width ∉ [8, 16, 32] →
      exec (.pktFromFields pk (fields ++ f :: rest)) s = .refused (.badWidth f.width))
    ∧ ∀ (s : State) (pk : PktName) (v scale : Rat) (adv : Bool) (w : FieldWidth), s.pkts.get pk = none →
      exec (appendInstr w pk v scale) s = .refused (.noPacket pk)
        ∧ exec (readInstr w pk scale adv) s = .refused (.noPacket pk)
        ∧ exec (.remaining pk) s = .refused (.noPacket pk)
        ∧ exec (.serialize (.message pk)) s = .refused (.noPacket pk)

/-- R111: `REMAINING`, and a `READ.w` returns a value exactly when `REMAINING` is at least `w/8`. -/
def Obligations.RemainingCountsUnreadBytes : Prop :=
  ∀ (s : State) (pk : PktName) (p : Packet), s.pkts.get pk = some p → p.index ≤ p.message.length →
    ∃ n, exec (.remaining pk) s = .next { s with result := .count n } ∧ p.index + n = p.message.length
      ∧ ∀ (w : FieldWidth) (scale : Rat) (adv : Bool), 0 < scale →
        ((∃ t q, exec (readInstr w pk scale adv) s = .next t ∧ t.result = .value q) ↔ w.bits / 8 ≤ n)

/-- R118, an inference of the spec's: a field read back from where it was appended, and how close it comes. -/
def Obligations.FieldRoundTrip : Prop :=
  ∀ (s : State) (pk : PktName) (w : FieldWidth) (v scale : Rat), 0 < scale → 0 ≤ trunc (v * scale) →
    trunc (v * scale) ≤ 2 ^ w.bits - 1 → (∀ c, s.cfg.msgCap = some c → w.bits / 8 ≤ c) →
    ∃ s₁ s₂ s₃ r, exec (.pktEmpty pk) s = .next s₁ ∧ exec (appendInstr w pk v scale) s₁ = .next s₂
      ∧ exec (readInstr w pk scale true) s₂ = .next s₃ ∧ s₃.result = .value r
      ∧ r = (trunc (v * scale) : Rat) / scale
      ∧ (0 ≤ v → 0 ≤ v - r ∧ v - r < 1 / scale)
      ∧ (r = v ↔ ∃ z : Int, v * scale = z)

/-! The Frame Encoder. -/

/-- R51, R52 and R121 (the boundary 255 is decision D1): the two forms, for bytes and for a packet's message. -/
def Obligations.SerializeChoosesTheForm : Prop :=
  (∀ (s : State) (l : Bytes), l.length ≤ 255 →
      exec (.serialize (.lit l)) s = .next { s with result := .bytes ([0x02, BitVec.ofNat 8 l.length] ++ l
        ++ [hiByte (crc16 s.rom l), loByte (crc16 s.rom l), 0x03]) })
    ∧ (∀ (s : State) (l : Bytes), 256 ≤ l.length → l.length ≤ 65535 →
      exec (.serialize (.lit l)) s = .next { s with
        result := .bytes ([0x03, BitVec.ofNat 8 (l.length / 256), BitVec.ofNat 8 (l.length % 256)] ++ l
          ++ [hiByte (crc16 s.rom l), loByte (crc16 s.rom l), 0x03]) })
    ∧ ∀ (s : State) (pk : PktName) (p : Packet), s.pkts.get pk = some p →
      exec (.serialize (.message pk)) s = exec (.serialize (.lit p.message)) s

/-- R123 and R124: the checksum of the payload alone, high byte first, then the terminator; nothing before the header, which
begins with a start marker. -/
def Obligations.SerializeAppendsCrcAndTerminator : Prop :=
  ∀ (s : State) (l : Bytes), l.length ≤ 65535 →
    ∃ hdr c, exec (.crc16 l) s = .next { s with result := .crc c }
      ∧ exec (.serialize (.lit l)) s
        = .next { s with result := .bytes (hdr ++ l ++ [c.extractLsb' 8 8, c.extractLsb' 0 8, 0x03]) }
      ∧ (hdr.head? = some 0x02 ∧ hdr.length = 2 ∨ hdr.head? = some 0x03 ∧ hdr.length = 3)

/-- R125 (decision D2): a payload of more than 65535 bytes is `MalformedLength`, with no bytes. -/
def Obligations.SerializeTooLongIsMalformed : Prop :=
  ∀ (s : State) (l : Bytes), 65535 < l.length →
    exec (.serialize (.lit l)) s = .next { s with result := .error (.malformedLength l.length) }

/-! Encodings and the step. -/

/-- R63 (decision D13): which command words are reserved, bit by bit, and that they are a refusal (R134). That a word with
`ws = 3` is `ReservedCommand`, where U6 names it `BadWidth`, is the model's reading (log entry 11). -/
def Obligations.ReservedCommandWordsAreRefused : Prop :=
  (∀ (ph : Phase) (cmd : Byte) (ops : Operands),
      let op := (cmd.extractLsb' 4 4).toNat
      let ws := (cmd.extractLsb' 2 2).toNat
      decode ph (.command cmd ops) = .ok (.reserved cmd) ↔
        (op ∈ [0x0, 0xA, 0xB, 0xC, 0xD, 0xE] ∨ ws = 3 ∧ op ∈ [6, 7] ∨ ws ≠ 0 ∧ op ∉ [6, 7]
          ∨ cmd.getLsbD 1 = true ∧ op ≠ 7 ∨ cmd.getLsbD 0 = true))
    ∧ ∀ (cmd : Byte) (s : State), exec (.reserved cmd) s = .refused (.reservedCommand cmd)

/-- R63: a word of each family, written out from the rule's table. -/
def Obligations.CommandWordsDecode : Prop :=
  ∀ ph : Phase, decode ph (.command 0b00010000 .unit) = .ok .decReset
    ∧ decode ph (.command 0b00100000 (.byte 0x7E)) = .ok (.decByte 0x7E)
    ∧ decode ph (.command 0b00110000 (.bytes [0x01])) = .ok (.crc16 [0x01])
    ∧ decode ph (.command 0b01100100 (.field 5 3 10)) = .ok (.append16 5 3 10)
    ∧ decode ph (.command 0b01111010 (.scaled 5 10)) = .ok (.read32 5 10 true)
    ∧ decode ph (.command 0b10010000 (.payload (.message 5))) = .ok (.serialize (.message 5))
    ∧ decode ph (.command 0b11110000 .unit) = .ok .reset

/-- R53, R62, R63 (decision D13): decoding what the encoder gives, in a phase that reads it, gives the instruction back with
every operand at every value. -/
def Obligations.DecodeOfEncode : Prop :=
  ∀ (ph : Phase) (i : Instr), i.wf = true → i.readIn ph = true → decode ph (encode i) = .ok i

/-- R63 (decision D13): each assigned command word, with operands of its shape, and each pseudo-operation has one meaning:
encoding what it decodes to gives the request back. -/
def Obligations.EncodeOfDecode : Prop :=
  ∀ (ph : Phase) (r : Request) (i : Instr), decode ph r = .ok i → (∀ b, r ≠ .wire b) → (∀ c, i ≠ .reserved c) →
    encode i = r

/-- R4 and R165: with no `DEC_FEED` in progress a step runs the decoded instruction on the state without the move it
consumed; of a `DEC_FEED` it runs the first byte, and each later step one byte more, adding its outcomes (R80). The caller's
list and the bytes still to be fed are the model's own (log entries 4 and 9). -/
def Obligations.StepRunsDecodedInstruction : Prop :=
  (∀ (s : State) (r : Request) (rest : List Input) (i : Instr), s.feeding = [] → s.pending = .call r :: rest →
      decode s.ds.phase r = .ok i → (∀ l, i ≠ .decFeed l) → step s = exec i { s with pending := rest })
    ∧ (∀ (s : State) (r : Request) (rest : List Input) (l : Bytes), s.feeding = [] → s.pending = .call r :: rest →
      decode s.ds.phase r = .ok (.decFeed l) →
      step s = exec (.decFeed (l.take 1)) { s with pending := rest, feeding := l.drop 1 })
    ∧ (∀ (s t : State) (b : Byte) (l : Bytes) (os ps : List DecOutcome), s.feeding = b :: l → s.result = .outcomes os →
      exec (.decFeed [b]) { s with feeding := l } = .next t → t.result = .outcomes ps →
      step s = .next { t with result := .outcomes (os ++ ps) })
    ∧ ∀ (s : State) (b : Byte) (l : Bytes) (r : Refusal), s.feeding = b :: l →
      exec (.decFeed [b]) { s with feeding := l } = .refused r → step s = .refused r

/-- The model's own interface (log entries 4 and 5), with no `DEC_FEED` in progress (log entry 9): with no move the state is
held (R140), and the caller takes an offered packet under a name (R153, R160), if it fits `MSG_CAP`. -/
def Obligations.StepHoldsAndTakes : Prop :=
  (∀ s : State, s.feeding = [] → s.pending = [] → step s = .next s)
    ∧ (∀ (s : State) (pk : PktName) (k : Nat) (rest : List Input) (p : Packet), s.feeding = [] →
      s.pending = .take pk k :: rest → s.result.offered[k]? = some p →
      ((∀ c, s.cfg.msgCap = some c → p.message.length ≤ c) →
        step s = .next { s with pkts := s.pkts.set pk p, pending := rest })
      ∧ ∀ c, s.cfg.msgCap = some c → c < p.message.length → step s = .refused .msgOverflow)
    ∧ ∀ (s : State) (pk : PktName) (k : Nat) (rest : List Input), s.feeding = [] → s.pending = .take pk k :: rest →
      s.result.offered[k]? = none → step s = .refused .nothingOffered

/-- R41 (decision D22): overlapping operations on `DS` have no meaning, and a request is on `DS` exactly when its
instruction is. That others take effect in the order invoked is R39 with log entry 10; that putting them in order is a step
of its own is the model's choice (log entry 10). -/
def Obligations.OverlapOnDecoderIsRefused : Prop :=
  (∀ (s : State) (r₁ r₂ : Request) (rest : List Input), s.feeding = [] → s.pending = .overlapping r₁ r₂ :: rest →
      (r₁.onDecoder = true → r₂.onDecoder = true → step s = .refused .overlap)
        ∧ (r₁.onDecoder = false ∨ r₂.onDecoder = false →
          step s = .next { s with pending := .call r₁ :: .call r₂ :: rest }))
    ∧ ∀ (ph : Phase) (r : Request) (i : Instr), decode ph r = .ok i → onDecoder i = r.onDecoder

/-! Whole-machine rules. -/

/-- R42: no operation, no step and no run writes `ROM`. -/
def Obligations.RomIsNeverWritten : Prop :=
  (∀ (i : Instr) (s t : State), exec i s = .next t → t.rom = s.rom)
    ∧ ∀ (k : Nat) (s t : State), Sys2Proof.core.run k s = .next t → t.rom = s.rom

/-- R15: an operation not on the decoder neither writes `DS` nor reads it. -/
def Obligations.OnlyDecoderOperationsTouchDS : Prop :=
  ∀ (i : Instr) (s : State) (d : DecState), onDecoder i = false →
    (∀ t, exec i s = .next t → t.ds = s.ds ∧ exec i { s with ds := d } = .next { t with ds := d })
      ∧ ∀ r, exec i s = .refused r → exec i { s with ds := d } = .refused r

/-- R17: what an operation does to each packet, by name; no operation on one packet changes another. -/
def Obligations.PacketsChangeOnlyAsNamed : Prop :=
  ∀ (i : Instr) (s t : State) (n : PktName), exec i s = .next t →
    match packetUse i n with
    | .creates => ∃ m, t.pkts.get n = some ⟨m, 0⟩
    | .appends => ∃ p bs, s.pkts.get n = some p ∧ t.pkts.get n = some { p with message := p.message ++ bs }
    | .moves => ∃ p k, s.pkts.get n = some p ∧ t.pkts.get n = some { p with index := p.index + k }
    | .discards => t.pkts = []
    | .leaves => t.pkts.get n = s.pkts.get n

/-- R137: what is written before an error is reported. -/
def Obligations.ErrorsWriteOnlyWhatTheTableSays : Prop :=
  ∀ (i : Instr) (s t : State), exec i s = .next t →
    (t.result.errorKind = some .frameRejected →
      t = { s with ds := ⟨.start, [], 0, 0⟩, result := .outcome .failure })
      ∧ (t.result.errorKind = some .truncatedRead ∨ t.result.errorKind = some .malformedLength →
        t = { s with result := t.result })

/-- R130 (the codes are decision D14): which operation raises which error, and under which code. -/
def Obligations.ErrorsComeFromTheirOperations : Prop :=
  ∀ (i : Instr) (s t : State), exec i s = .next t →
    (t.result.errorCode = 0 ∨ t.result.errorCode = 1 ∨ t.result.errorCode = 2 ∨ t.result.errorCode = 3)
      ∧ (t.result.errorCode = 1 → s.ds.phase = .terminate ∧ onDecoder i = true)
      ∧ (t.result.errorCode = 2 → ∃ w pk scale adv, i = readInstr w pk scale adv)
      ∧ (t.result.errorCode = 3 → ∃ src, i = .serialize src)

/-- R41 and R153 (decision D22): the decode direction and the encode direction share no state, so their operations
commute: either order gives what the other does. -/
def Obligations.DecoderAndCodecCommute : Prop :=
  ∀ (d c : Instr) (s s₁ t₁ : State), onDecoder d = true → d ≠ .reset → onDecoder c = false →
    (exec d s = .next s₁ → exec c s₁ = .next t₁ →
      ∃ s₂, exec c s = .next s₂ ∧ s₂.result = t₁.result ∧ exec d s₂ = .next { t₁ with result := s₁.result })
    ∧ (exec c s = .next s₁ → exec d s₁ = .next t₁ →
      ∃ s₂, exec d s = .next s₂ ∧ s₂.result = t₁.result ∧ exec c s₂ = .next { t₁ with result := s₁.result })

/-- The invariant of R84, R17 and the packet memory's form holds at reset. -/
def Obligations.InvariantAtReset : Prop := State.reset.Inv

/-- R84, R17 (inferences of the spec's) and the packet memory's canonical form: every step keeps the invariant, from every
state that has it. Its clauses on offered packets and on a feed in progress are about the model's own fields (log entries 5
and 9). -/
def Obligations.StepKeepsInvariant : Prop :=
  ∀ s t : State, s.Inv → step s = .next t → t.Inv

/-- The model's own: no operation and no run writes the capacities (log entry 2), and no operation writes the caller's list
(log entry 4) or the bytes still to be fed (log entry 9). -/
def Obligations.CapacitiesAndMovesStand : Prop :=
  (∀ (i : Instr) (s t : State), exec i s = .next t →
      t.cfg = s.cfg ∧ t.pending = s.pending ∧ t.feeding = s.feeding)
    ∧ ∀ (k : Nat) (s t : State), Sys2Proof.core.run k s = .next t → t.cfg = s.cfg
end

