-- ==== Sys2Proof/Laws/Memory.lean ====
section
/-! SUPPORT. The packet memory: read after write, and every operation keeps the canonical form. -/

namespace Sys2Proof.Machine

namespace Memory

theorem get_set_same (m : Memory) (pk : PktName) (p : Packet) : (m.set pk p).get pk = some p := by
  induction m with
  | nil => simp [set, get]
  | cons e rest ih =>
    obtain ⟨n, q⟩ := e
    by_cases h : pk < n
    · simp [set, get, h]
    · by_cases h' : pk = n
      · simp [set, get, h']
      · have hn : ¬ n = pk := fun h => h' h.symm
        simp [set, get, h, h', hn, ih]

theorem get_set_other (m : Memory) {pk n : PktName} (p : Packet) (hne : n ≠ pk) : (m.set pk p).get n = m.get n := by
  induction m with
  | nil => simp [set, get, hne.symm]
  | cons e rest ih =>
    obtain ⟨k, q⟩ := e
    by_cases h : pk < k
    · simp [set, get, h, hne.symm]
    · by_cases h' : pk = k
      · subst h'
        simp [set, get, hne.symm]
      · simp only [set, h, h', if_false, get]
        rw [ih]

/-- Every entry after a write is the one written or was there before. -/
theorem mem_set {m : Memory} {pk : PktName} {p : Packet} {e : PktName × Packet} (h : e ∈ m.set pk p) :
    e = (pk, p) ∨ e ∈ m := by
  induction m with
  | nil => simpa [set] using h
  | cons a rest ih =>
    obtain ⟨n, q⟩ := a
    by_cases h₁ : pk < n
    · simpa [set, h₁] using h
    · by_cases h₂ : pk = n
      · simp only [set, h₂, if_true, if_false, lt_irrefl, List.mem_cons] at h
        rcases h with h | h
        · exact .inl (by rw [h, h₂])
        · exact .inr (List.mem_cons_of_mem _ h)
      · simp only [set, h₁, h₂, if_false, List.mem_cons] at h
        rcases h with h | h
        · exact .inr (by simp [h])
        · exact (ih h).imp_right (List.mem_cons_of_mem _)

/-- A packet that exists is an entry of the memory. -/
theorem mem_of_get {m : Memory} {pk : PktName} {p : Packet} (h : m.get pk = some p) : (pk, p) ∈ m := by
  induction m with
  | nil => simp [get] at h
  | cons a rest ih =>
    obtain ⟨n, q⟩ := a
    by_cases hn : n = pk
    · simp only [get, hn, if_true, Option.some.injEq] at h
      simp [hn, h]
    · simp only [get, hn, if_false] at h
      exact List.mem_cons_of_mem _ (ih h)

/-- The canonical form, as a relation on the list of entries. -/
theorem wf_iff_pairwise (m : Memory) : m.wf = true ↔ m.Pairwise (·.1 < ·.1) := by
  induction m with
  | nil => simp [wf]
  | cons a rest ih =>
    cases rest with
    | nil => simp [wf]
    | cons b tail =>
      obtain ⟨n, q⟩ := a
      obtain ⟨k, r⟩ := b
      rw [wf, Bool.and_eq_true, decide_eq_true_eq, ih]
      constructor
      · rintro ⟨h, hp⟩
        refine List.pairwise_cons.mpr ⟨fun e he => ?_, hp⟩
        rcases List.mem_cons.mp he with he | he
        · exact he ▸ h
        · exact lt_trans h ((List.pairwise_cons.mp hp).1 e he)
      · intro h
        exact ⟨(List.pairwise_cons.mp h).1 _ List.mem_cons_self, (List.pairwise_cons.mp h).2⟩

theorem wf_set {m : Memory} (pk : PktName) (p : Packet) (h : m.wf = true) : (m.set pk p).wf = true := by
  rw [wf_iff_pairwise] at h ⊢
  induction m with
  | nil => simp [set]
  | cons a rest ih =>
    obtain ⟨n, q⟩ := a
    have ⟨hn, hrest⟩ := List.pairwise_cons.mp h
    by_cases h₁ : pk < n
    · simp only [set, h₁, if_true]
      refine List.pairwise_cons.mpr ⟨fun e he => ?_, h⟩
      rcases List.mem_cons.mp he with he | he
      · exact he ▸ h₁
      · exact lt_trans h₁ (hn e he)
    · by_cases h₂ : pk = n
      · simp only [set, h₂, lt_irrefl, if_true, if_false]
        exact List.pairwise_cons.mpr ⟨hn, hrest⟩
      · simp only [set, h₁, h₂, if_false]
        refine List.pairwise_cons.mpr ⟨fun e he => ?_, ih hrest⟩
        rcases mem_set he with he | he
        · exact he ▸ lt_of_le_of_ne (not_lt.mp h₁) (Ne.symm h₂)
        · exact hn e he

theorem wf_nil : Memory.wf [] = true := rfl

end Memory

theorem ensurePacketZero_wf {m : Memory} (h : m.wf = true) : (ensurePacketZero m).wf = true := by
  unfold ensurePacketZero
  split
  · exact Memory.wf_set _ _ h
  · exact h

theorem ensurePacketZero_get (m : Memory) : ∃ p, (ensurePacketZero m).get 0 = some p := by
  unfold ensurePacketZero
  split
  · exact ⟨_, Memory.get_set_same _ _ _⟩
  · next p h => exact ⟨p, h⟩

end Sys2Proof.Machine
end

