-- ==== Sys2Proof/Laws/State.lean ====
section
/-! SUPPORT. One lemma per field per update of State. -/

namespace Sys2Proof.Machine.State

@[simp] theorem putDs_ds (s : State) (d : DecState) : (s.putDs d).ds = d := rfl

@[simp] theorem putDs_pkts (s : State) (d : DecState) : (s.putDs d).pkts = s.pkts := rfl

@[simp] theorem putDs_rom (s : State) (d : DecState) : (s.putDs d).rom = s.rom := rfl

@[simp] theorem putDs_cfg (s : State) (d : DecState) : (s.putDs d).cfg = s.cfg := rfl

@[simp] theorem putDs_result (s : State) (d : DecState) : (s.putDs d).result = s.result := rfl

@[simp] theorem putDs_pending (s : State) (d : DecState) : (s.putDs d).pending = s.pending := rfl

@[simp] theorem putDs_feeding (s : State) (d : DecState) : (s.putDs d).feeding = s.feeding := rfl

@[simp] theorem putPkts_ds (s : State) (m : Memory) : (s.putPkts m).ds = s.ds := rfl

@[simp] theorem putPkts_pkts (s : State) (m : Memory) : (s.putPkts m).pkts = m := rfl

@[simp] theorem putPkts_rom (s : State) (m : Memory) : (s.putPkts m).rom = s.rom := rfl

@[simp] theorem putPkts_cfg (s : State) (m : Memory) : (s.putPkts m).cfg = s.cfg := rfl

@[simp] theorem putPkts_result (s : State) (m : Memory) : (s.putPkts m).result = s.result := rfl

@[simp] theorem putPkts_pending (s : State) (m : Memory) : (s.putPkts m).pending = s.pending := rfl

@[simp] theorem putPkts_feeding (s : State) (m : Memory) : (s.putPkts m).feeding = s.feeding := rfl

@[simp] theorem putResult_ds (s : State) (r : Result) : (s.putResult r).ds = s.ds := rfl

@[simp] theorem putResult_pkts (s : State) (r : Result) : (s.putResult r).pkts = s.pkts := rfl

@[simp] theorem putResult_rom (s : State) (r : Result) : (s.putResult r).rom = s.rom := rfl

@[simp] theorem putResult_cfg (s : State) (r : Result) : (s.putResult r).cfg = s.cfg := rfl

@[simp] theorem putResult_result (s : State) (r : Result) : (s.putResult r).result = r := rfl

@[simp] theorem putResult_pending (s : State) (r : Result) : (s.putResult r).pending = s.pending := rfl

@[simp] theorem putResult_feeding (s : State) (r : Result) : (s.putResult r).feeding = s.feeding := rfl

@[simp] theorem putPending_ds (s : State) (l : List Input) : (s.putPending l).ds = s.ds := rfl

@[simp] theorem putPending_pkts (s : State) (l : List Input) : (s.putPending l).pkts = s.pkts := rfl

@[simp] theorem putPending_rom (s : State) (l : List Input) : (s.putPending l).rom = s.rom := rfl

@[simp] theorem putPending_cfg (s : State) (l : List Input) : (s.putPending l).cfg = s.cfg := rfl

@[simp] theorem putPending_result (s : State) (l : List Input) : (s.putPending l).result = s.result := rfl

@[simp] theorem putPending_pending (s : State) (l : List Input) : (s.putPending l).pending = l := rfl

@[simp] theorem putPending_feeding (s : State) (l : List Input) : (s.putPending l).feeding = s.feeding := rfl

@[simp] theorem putFeeding_ds (s : State) (l : Bytes) : (s.putFeeding l).ds = s.ds := rfl

@[simp] theorem putFeeding_pkts (s : State) (l : Bytes) : (s.putFeeding l).pkts = s.pkts := rfl

@[simp] theorem putFeeding_rom (s : State) (l : Bytes) : (s.putFeeding l).rom = s.rom := rfl

@[simp] theorem putFeeding_cfg (s : State) (l : Bytes) : (s.putFeeding l).cfg = s.cfg := rfl

@[simp] theorem putFeeding_result (s : State) (l : Bytes) : (s.putFeeding l).result = s.result := rfl

@[simp] theorem putFeeding_pending (s : State) (l : Bytes) : (s.putFeeding l).pending = s.pending := rfl

@[simp] theorem putFeeding_feeding (s : State) (l : Bytes) : (s.putFeeding l).feeding = l := rfl

end Sys2Proof.Machine.State
end

