-- ==== Sys2Proof/Laws/Ops.lean ====
section
/-! SUPPORT. What each shared operation of Ops, Operands, FieldCodec and FrameEncoder can do, said once. -/

namespace Sys2Proof.Machine

/-! Byte order (R33). -/

@[simp] theorem beBytes_length (n x : Nat) : (beBytes n x).length = n := by
  induction n with
  | zero => rfl
  | succ n ih => simp [beBytes, ih]

theorem beVal_lt (s : Bytes) : beVal s < 2 ^ (8 * s.length) := by
  induction s with
  | nil => simp [beVal]
  | cons b t ih =>
    have hb : b.toNat + 1 ≤ 2 ^ 8 := b.isLt
    have hp : 2 ^ (8 * (b :: t).length) = 2 ^ 8 * 2 ^ (8 * t.length) := by
      rw [List.length_cons, ← pow_add]
      congr 1
      omega
    have hm : (b.toNat + 1) * 2 ^ (8 * t.length) ≤ 2 ^ 8 * 2 ^ (8 * t.length) := Nat.mul_le_mul_right _ hb
    rw [hp, beVal]
    rw [Nat.add_mul, one_mul] at hm
    omega

theorem beVal_beBytes_mod (n x : Nat) : beVal (beBytes n x) = x % 2 ^ (8 * n) := by
  induction n with
  | zero => simp [beBytes, beVal, Nat.mod_one]
  | succ n ih =>
    have hp : 2 ^ (8 * (n + 1)) = 2 ^ (8 * n) * 2 ^ 8 := by rw [← pow_add]; congr 1
    rw [beBytes, beVal, beBytes_length, ih, BitVec.toNat_ofNat, Nat.shiftRight_eq_div_pow, hp, Nat.mod_mul]
    ring

/-- `be_val(be_bytes(n, x)) = x` for `x` in range (R33). -/
theorem beVal_beBytes {n x : Nat} (h : x < 2 ^ (8 * n)) : beVal (beBytes n x) = x := by
  rw [beVal_beBytes_mod, Nat.mod_eq_of_lt h]

/-- `be_bytes(n, be_val(s)) = s` for every `s` of length `n` (R33). -/
theorem beBytes_beVal_add (s : Bytes) (k : Nat) : beBytes s.length (beVal s + k * 2 ^ (8 * s.length)) = s := by
  induction s generalizing k with
  | nil => rfl
  | cons b t ih =>
    have hp : 2 ^ (8 * (b :: t).length) = 2 ^ 8 * 2 ^ (8 * t.length) := by
      rw [List.length_cons, ← pow_add]
      congr 1
      omega
    have hx : beVal (b :: t) + k * 2 ^ (8 * (b :: t).length)
        = beVal t + (b.toNat + k * 2 ^ 8) * 2 ^ (8 * t.length) := by
      rw [hp, beVal]
      ring
    rw [hx, List.length_cons, beBytes, ih]
    congr 1
    rw [Nat.shiftRight_eq_div_pow, Nat.add_mul_div_right _ _ (by positivity), Nat.div_eq_of_lt (beVal_lt t)]
    apply BitVec.eq_of_toNat_eq
    rw [BitVec.toNat_ofNat, zero_add, Nat.add_mul_mod_self_right]
    exact Nat.mod_eq_of_lt b.isLt

theorem beBytes_beVal (s : Bytes) : beBytes s.length (beVal s) = s := by
  simpa using beBytes_beVal_add s 0

/-- The two halves of a 16-bit value put together again (R54, R55). -/
theorem hi_or_lo (c : U16) : zext16 (hiByte c) <<< 8 ||| zext16 (loByte c) = c := by
  ext i hi
  by_cases h : i < 8
  · simp [zext16, hiByte, loByte, h, hi]
  · have h8 : i - 8 < 8 := by omega
    have he : 8 + (i - 8) = i := by omega
    simp [zext16, hiByte, loByte, h, hi, h8, he]

/-! Storage. -/

theorem memRead_append_end (m v : Bytes) : memRead (memAppend m v) m.length v.length = v := by
  simp [memRead, memAppend]

@[simp] theorem fits_none (n : Nat) : fits none n = true := rfl

theorem fits_some (c n : Nat) : fits (some c) n = true ↔ n ≤ c := by simp [fits]

theorem fits_mono {cap : Option Nat} {m n : Nat} (hle : m ≤ n) (h : fits cap n = true) : fits cap m = true := by
  cases cap with
  | none => rfl
  | some c => exact (fits_some c m).mpr (le_trans hle ((fits_some c n).mp h))

/-! Results and errors. -/

theorem returnResult_eq (r : Result) (s : State) : returnResult r s = .next (s.putResult r) := rfl

/-- An error writes nothing but the result (R137). -/
theorem raiseError_eq (e : OpError) (s : State) : raiseError e s = .next (s.putResult (.error e)) := rfl

/-! Packets. -/

theorem createPacket_next {pk : PktName} {p : Packet} {s t : State} (h : createPacket pk p s = .next t) :
    fits s.cfg.msgCap p.message.length = true ∧ t = (s.putPkts (s.pkts.set pk p)).putResult (.packet p) := by
  unfold createPacket at h
  split at h
  · next hf => exact ⟨hf, (Host.Outcome.next.inj h).symm⟩
  · cases h

theorem takeOffered_next {pk : PktName} {k : Nat} {s t : State} (h : takeOffered pk k s = .next t) :
    ∃ p, s.result.offered[k]? = some p ∧ fits s.cfg.msgCap p.message.length = true
      ∧ t = s.putPkts (s.pkts.set pk p) := by
  unfold takeOffered at h
  split at h
  · cases h
  · next p hp =>
    split at h
    · next hf => exact ⟨p, hp, hf, (Host.Outcome.next.inj h).symm⟩
    · cases h

theorem overlapRequests_next {r₁ r₂ : Request} {s t : State} (h : overlapRequests r₁ r₂ s = .next t) :
    (r₁.onDecoder && r₂.onDecoder) = false ∧ t = s.putPending (.call r₁ :: .call r₂ :: s.pending) := by
  unfold overlapRequests at h
  split at h
  · cases h
  · next hb => exact ⟨by simpa using hb, (Host.Outcome.next.inj h).symm⟩

theorem withPacket_some {pk : PktName} {s : State} {p : Packet} (k : Packet → Host.Outcome State Fault Refusal)
    (h : s.pkts.get pk = some p) : withPacket pk s k = k p := by simp [withPacket, h]

theorem withPacket_next {pk : PktName} {s t : State} {k : Packet → Host.Outcome State Fault Refusal}
    (h : withPacket pk s k = .next t) : ∃ p, s.pkts.get pk = some p ∧ k p = .next t := by
  unfold withPacket at h
  split at h
  · next p hp => exact ⟨p, hp, h⟩
  · cases h

theorem withPayload_next {src : PayloadArg} {s t : State} {k : Bytes → Host.Outcome State Fault Refusal}
    (h : withPayload src s k = .next t) : ∃ l, k l = .next t := by
  cases src with
  | lit l => exact ⟨l, h⟩
  | message pk =>
    obtain ⟨p, -, hk⟩ := withPacket_next h
    exact ⟨p.message, hk⟩

/-! Fields. -/

/-- Truncation of a fraction does not depend on its being reduced. -/
theorem tdiv_of_common (a : Int) (b g : Nat) (hg : 0 < g) (ha : (g : Int) ∣ a) (hb : g ∣ b) :
    (a / g).tdiv ((b / g : Nat) : Int) = a.tdiv b := by
  obtain ⟨x, rfl⟩ := ha
  obtain ⟨y, rfl⟩ := hb
  have hg' : (g : Int) ≠ 0 := by exact_mod_cast hg.ne'
  rw [Int.mul_ediv_cancel_left _ hg', Nat.mul_div_cancel_left _ hg, Nat.cast_mul, Int.mul_tdiv_mul_of_pos _ _ (by omega)]

/-- The stored integer is `trunc (v * scale)` (R113). -/
theorem storedInt_eq_trunc (v scale : Rat) : storedInt v scale = trunc (v * scale) := by
  have hg : 0 < (v.num * scale.num).natAbs.gcd (v.den * scale.den) :=
    Nat.gcd_pos_of_pos_right _ (Nat.mul_pos v.den_pos scale.den_pos)
  unfold trunc storedInt
  rw [Rat.mul_num, Rat.mul_den]
  have h := tdiv_of_common (v.num * scale.num) (v.den * scale.den) _ hg
    (Int.natCast_dvd.mpr (Nat.gcd_dvd_left _ _)) (Nat.gcd_dvd_right _ _)
  rw [h, Nat.cast_mul]

theorem checkField_ok {w : Nat} {scale : Rat} (h : checkField w scale = .ok ()) :
    Config.fieldWidths.contains w = true ∧ 0 < scale := by
  unfold checkField at h
  split at h
  · next hw =>
    split at h
    · next hs => exact ⟨hw, hs⟩
    · cases h
  · cases h

theorem checkField_of {w : Nat} {scale : Rat} (hw : Config.fieldWidths.contains w = true) (hs : 0 < scale) :
    checkField w scale = .ok () := by simp only [checkField, hw, hs, if_true]

theorem encodeField_ok {w : Nat} {v scale : Rat} {bs : Bytes} (h : encodeField w v scale = .ok bs) :
    checkField w scale = .ok () ∧ 0 ≤ trunc (v * scale) ∧ trunc (v * scale) ≤ 2 ^ w - 1
      ∧ bs = beBytes (w / 8) (trunc (v * scale)).toNat := by
  unfold encodeField at h
  split at h
  · cases h
  · next hc =>
    split at h
    · next hr =>
      rw [storedInt_eq_trunc] at hr
      refine ⟨hc, hr.1, hr.2, ?_⟩
      rw [← storedInt_eq_trunc]
      exact (Except.ok.inj h).symm
    · cases h

theorem encodeField_of {w : Nat} {v scale : Rat} (hc : checkField w scale = .ok ()) (h₀ : 0 ≤ trunc (v * scale))
    (h₁ : trunc (v * scale) ≤ 2 ^ w - 1) : encodeField w v scale = .ok (beBytes (w / 8) (trunc (v * scale)).toNat) := by
  simp only [encodeField, hc, storedInt_eq_trunc, h₀, h₁, and_self, if_true]

theorem appendField_ok {cfg : Config} {w : Nat} {v scale : Rat} {p p' : Packet}
    (h : appendField cfg w v scale p = .ok p') :
    ∃ bs, encodeField w v scale = .ok bs ∧ fits cfg.msgCap (p.message ++ bs).length = true
      ∧ p' = { p with message := p.message ++ bs } := by
  unfold appendField at h
  split at h
  · cases h
  · next bs hb =>
    by_cases hf : fits cfg.msgCap (p.message ++ bs).length = true
    · simp only [memAppend, hf, if_true] at h
      exact ⟨bs, hb, hf, (Except.ok.inj h).symm⟩
    · simp only [memAppend, hf] at h
      cases h

theorem appendField_of {cfg : Config} {w : Nat} {v scale : Rat} {p : Packet} {bs : Bytes}
    (hb : encodeField w v scale = .ok bs) (hf : fits cfg.msgCap (p.message ++ bs).length = true) :
    appendField cfg w v scale p = .ok { p with message := p.message ++ bs } := by
  simp only [appendField, hb, memAppend, hf, if_true]

/-- The fields go to the end in order, the cursor stays, and the message still fits. -/
theorem appendFields_ok {cfg : Config} {fields : List FieldArg} {p p' : Packet}
    (h : appendFields cfg fields p = .ok p') :
    p.message <+: p'.message ∧ p'.index = p.index
      ∧ (fits cfg.msgCap p.message.length = true → fits cfg.msgCap p'.message.length = true) := by
  induction fields generalizing p with
  | nil =>
    cases h
    exact ⟨List.prefix_refl _, rfl, id⟩
  | cons f rest ih =>
    unfold appendFields at h
    split at h
    · cases h
    · next q hq =>
      obtain ⟨bs, -, hf, rfl⟩ := appendField_ok hq
      obtain ⟨hpre, hix, hfit⟩ := ih h
      exact ⟨(List.prefix_append _ _).trans hpre, hix, fun _ => hfit hf⟩

/-- Triples in two parts: a refusal of the first is a refusal of the whole (R102). -/
theorem appendFields_append (cfg : Config) (fs gs : List FieldArg) (p : Packet) :
    appendFields cfg (fs ++ gs) p
      = match appendFields cfg fs p with
        | .error r => .error r
        | .ok p' => appendFields cfg gs p' := by
  induction fs generalizing p with
  | nil => rfl
  | cons f t ih =>
    rw [List.cons_append]
    simp only [appendFields]
    cases appendField cfg f.width f.value f.scale p with
    | error r => rfl
    | ok p' => exact ih p'

theorem appendTo_next {w : Nat} {pk : PktName} {v scale : Rat} {s t : State} (h : appendTo w pk v scale s = .next t) :
    ∃ p bs, s.pkts.get pk = some p ∧ encodeField w v scale = .ok bs
      ∧ fits s.cfg.msgCap (p.message ++ bs).length = true
      ∧ t = (s.putPkts (s.pkts.set pk { p with message := p.message ++ bs })).putResult .nothing := by
  obtain ⟨p, hp, hk⟩ := withPacket_next h
  split at hk
  · cases hk
  · next p' hp' =>
    obtain ⟨bs, hb, hf, rfl⟩ := appendField_ok hp'
    exact ⟨p, bs, hp, hb, hf, (Host.Outcome.next.inj hk).symm⟩

theorem appendTo_of {w : Nat} {pk : PktName} {v scale : Rat} {s : State} {p : Packet}
    (hp : s.pkts.get pk = some p) (hw : Config.fieldWidths.contains w = true) (hs : 0 < scale)
    (h₀ : 0 ≤ trunc (v * scale)) (h₁ : trunc (v * scale) ≤ 2 ^ w - 1)
    (hf : fits s.cfg.msgCap (p.message.length + w / 8) = true) :
    appendTo w pk v scale s
      = .next ((s.putPkts (s.pkts.set pk
          { p with message := p.message ++ beBytes (w / 8) (trunc (v * scale)).toNat })).putResult .nothing) := by
  have hb := encodeField_of (checkField_of hw hs) h₀ h₁
  have hf' : fits s.cfg.msgCap (p.message ++ beBytes (w / 8) (trunc (v * scale)).toNat).length = true := by
    simpa using hf
  simp only [appendTo, withPacket_some _ hp, appendField_of hb hf', returnResult_eq]

theorem readFrom_next {w : Nat} {pk : PktName} {scale : Rat} {adv : Bool} {s t : State}
    (h : readFrom w pk scale adv s = .next t) :
    ∃ p, s.pkts.get pk = some p ∧ checkField w scale = .ok ()
      ∧ (p.remaining < w / 8 ∧ t = s.putResult (.error (.truncatedRead w p.remaining))
        ∨ w / 8 ≤ p.remaining
          ∧ t = (if adv then s.putPkts (s.pkts.set pk { p with index := p.index + w / 8 }) else s).putResult
              (.value ((beVal (memRead p.message p.index (w / 8)) : Rat) / scale))) := by
  obtain ⟨p, hp, hk⟩ := withPacket_next h
  split at hk
  · cases hk
  · next hc =>
    refine ⟨p, hp, hc, ?_⟩
    split at hk
    · next hlt => exact .inl ⟨hlt, (Host.Outcome.next.inj hk).symm⟩
    · next hge => exact .inr ⟨not_lt.mp hge, (Host.Outcome.next.inj hk).symm⟩

theorem readFrom_of {w : Nat} {pk : PktName} {scale : Rat} (adv : Bool) {s : State} {p : Packet}
    (hp : s.pkts.get pk = some p) (hw : Config.fieldWidths.contains w = true) (hs : 0 < scale) :
    readFrom w pk scale adv s
      = if p.remaining < w / 8 then .next (s.putResult (.error (.truncatedRead w p.remaining)))
        else .next ((if adv then s.putPkts (s.pkts.set pk { p with index := p.index + w / 8 }) else s).putResult
              (.value ((beVal (memRead p.message p.index (w / 8)) : Rat) / scale))) := by
  simp only [readFrom, withPacket_some _ hp, checkField_of hw hs, raiseError_eq, returnResult_eq]

/-! Frames. -/

theorem serializeFrame_short (rom : Vector U16 256) {l : Bytes} (h : l.length ≤ 255) :
    serializeFrame rom l
      = .ok ([Config.startShort, BitVec.ofNat 8 l.length] ++ l ++ frameTrailer (crc16 rom l)) := by
  have h₁ : ¬ Config.lenMax < l.length := by unfold Config.lenMax; omega
  have h₂ : l.length ≤ Config.shortMax := h
  simp only [serializeFrame, h₁, if_false, frameHeader, h₂, if_true]

theorem serializeFrame_long (rom : Vector U16 256) {l : Bytes} (h₀ : 255 < l.length) (h : l.length ≤ 65535) :
    serializeFrame rom l
      = .ok ([Config.startLong, BitVec.ofNat 8 (l.length >>> 8), BitVec.ofNat 8 l.length] ++ l
          ++ frameTrailer (crc16 rom l)) := by
  have h₁ : ¬ Config.lenMax < l.length := not_lt.mpr h
  have h₂ : ¬ l.length ≤ Config.shortMax := not_le.mpr h₀
  simp only [serializeFrame, h₁, if_false, frameHeader, h₂]

theorem serializeFrame_tooLong (rom : Vector U16 256) {l : Bytes} (h : 65535 < l.length) :
    serializeFrame rom l = .error (.malformedLength l.length) := by
  have h₁ : Config.lenMax < l.length := h
  simp only [serializeFrame, h₁, if_true]

/-- `SERIALIZE` writes nothing but its result (R126). -/
theorem execSerialize_next {src : PayloadArg} {s t : State} (h : execSerialize src s = .next t) :
    ∃ r, t = s.putResult r ∧ r.offered = [] := by
  obtain ⟨l, hl⟩ := withPayload_next h
  split at hl
  · next f _ => exact ⟨.bytes f, (Host.Outcome.next.inj hl).symm, rfl⟩
  · next e _ => exact ⟨.error e, (Host.Outcome.next.inj hl).symm, rfl⟩

end Sys2Proof.Machine
end

