-- ==== Sys2Proof/Laws/Decoder.lean ====
section
/-! SUPPORT. What a byte, and a chunk of bytes, can do to the decoder, said once. -/

namespace Sys2Proof.Machine

/-- Every way a byte step completes, by the phase before it (R70 to R77). -/
theorem decodeByte_cases {cfg : Config} {rom : Vector U16 256} {b : Byte} {d d' : DecState} {o : DecOutcome}
    (h : decodeByte cfg rom b d = .ok (d', o)) :
    (d.phase = .start ∧ d' = phaseStart b d ∧ o = .silent)
      ∨ (d.phase = .lenHi ∧ d' = phaseLenHi b d ∧ o = .silent)
      ∨ (d.phase = .lenLo ∧ d' = phaseLenLo b d ∧ o = .silent)
      ∨ (d.phase = .payload ∧ fits cfg.payloadCap (d.payload.length + 1) = true ∧ d' = phasePayload b d ∧ o = .silent)
      ∨ (d.phase = .crcHi ∧ d' = phaseCrcHi b d ∧ o = .silent)
      ∨ (d.phase = .crcLo ∧ d' = phaseCrcLo b d ∧ o = .silent)
      ∨ (d.phase = .terminate ∧ d' = .fresh ∧ o = verify rom b d) := by
  unfold decodeByte at h
  cases hp : d.phase with
  | payload =>
    rw [hp] at h
    dsimp only at h
    split at h
    · next hf =>
      cases h
      simp [hf]
    · cases h
  | _ =>
    rw [hp] at h
    cases h
    simp

/-- A byte step without a meaning is a phase 3 append to a full buffer (R38). -/
theorem decodeByte_error {cfg : Config} {rom : Vector U16 256} {b : Byte} {d : DecState} {r : Refusal}
    (h : decodeByte cfg rom b d = .error r) :
    r = .payloadOverflow ∧ d.phase = .payload ∧ fits cfg.payloadCap (d.payload.length + 1) = false := by
  unfold decodeByte at h
  cases hp : d.phase with
  | payload =>
    rw [hp] at h
    dsimp only at h
    split at h
    · cases h
    · next hf =>
      cases h
      simpa using hf
  | _ =>
    rw [hp] at h
    cases h

/-- With room for a byte every byte step completes (R70). -/
theorem decodeByte_completes {cfg : Config} (rom : Vector U16 256) (b : Byte) (d : DecState)
    (h : d.phase = .payload → fits cfg.payloadCap (d.payload.length + 1) = true) :
    ∃ d' o, decodeByte cfg rom b d = .ok (d', o) := by
  cases hr : decodeByte cfg rom b d with
  | ok x => exact ⟨x.1, x.2, rfl⟩
  | error r =>
    obtain ⟨-, hp, hf⟩ := decodeByte_error hr
    rw [h hp] at hf
    cases hf

@[simp] theorem decodeBytes_nil (cfg : Config) (rom : Vector U16 256) (d : DecState) :
    decodeBytes cfg rom [] d = .ok (d, []) := rfl

theorem decodeBytes_cons_ok {cfg : Config} {rom : Vector U16 256} {b : Byte} {t : Bytes} {d d' d'' : DecState}
    {o : DecOutcome} {os : List DecOutcome} (h : decodeByte cfg rom b d = .ok (d', o))
    (ht : decodeBytes cfg rom t d' = .ok (d'', os)) :
    decodeBytes cfg rom (b :: t) d = .ok (d'', o.signal ++ os) := by
  simp only [decodeBytes, h, ht]

/-- A chunk that completes: its first byte completes, and then the rest. -/
theorem decodeBytes_cons_inv {cfg : Config} {rom : Vector U16 256} {b : Byte} {t : Bytes} {d d'' : DecState}
    {os : List DecOutcome} (h : decodeBytes cfg rom (b :: t) d = .ok (d'', os)) :
    ∃ d' o os', decodeByte cfg rom b d = .ok (d', o) ∧ decodeBytes cfg rom t d' = .ok (d'', os')
      ∧ os = o.signal ++ os' := by
  unfold decodeBytes at h
  split at h
  · cases h
  · next d' o hb =>
    split at h
    · cases h
    · next d₂ os' ht =>
      cases h
      exact ⟨d', o, os', hb, ht, rfl⟩

/-- A chunk in two parts (R82). -/
theorem decodeBytes_append (cfg : Config) (rom : Vector U16 256) (l m : Bytes) (d : DecState) :
    decodeBytes cfg rom (l ++ m) d
      = match decodeBytes cfg rom l d with
        | .error r => .error r
        | .ok (d', os) =>
          match decodeBytes cfg rom m d' with
          | .error r => .error r
          | .ok (d'', os') => .ok (d'', os ++ os') := by
  induction l generalizing d with
  | nil =>
    simp only [List.nil_append, decodeBytes_nil]
    cases decodeBytes cfg rom m d <;> rfl
  | cons b t ih =>
    rw [List.cons_append]
    simp only [decodeBytes]
    cases decodeByte cfg rom b d with
    | error r => rfl
    | ok x =>
      obtain ⟨d', o⟩ := x
      simp only [ih d']
      cases decodeBytes cfg rom t d' with
      | error r => rfl
      | ok y =>
        obtain ⟨d₁, os⟩ := y
        dsimp only
        cases decodeBytes cfg rom m d₁ with
        | error r => rfl
        | ok z => simp only [List.append_assoc]

theorem receiveByte_of {b : Byte} {s : State} {d : DecState} {o : DecOutcome}
    (h : decodeByte s.cfg s.rom b s.ds = .ok (d, o)) :
    receiveByte b s = .next ((s.putDs d).putResult (.outcome o)) := by
  simp only [receiveByte, h, returnResult_eq]

theorem receiveByte_next {b : Byte} {s t : State} (h : receiveByte b s = .next t) :
    ∃ d o, decodeByte s.cfg s.rom b s.ds = .ok (d, o) ∧ t = (s.putDs d).putResult (.outcome o) := by
  unfold receiveByte at h
  split at h
  · next d o hd => exact ⟨d, o, hd, (Host.Outcome.next.inj h).symm⟩
  · cases h

theorem execDecFeed_of {l : Bytes} {s : State} {d : DecState} {os : List DecOutcome}
    (h : decodeBytes s.cfg s.rom l s.ds = .ok (d, os)) :
    execDecFeed l s = .next ((s.putDs d).putResult (.outcomes os)) := by
  simp only [execDecFeed, h, returnResult_eq]

theorem execDecFeed_next {l : Bytes} {s t : State} (h : execDecFeed l s = .next t) :
    ∃ d os, decodeBytes s.cfg s.rom l s.ds = .ok (d, os) ∧ t = (s.putDs d).putResult (.outcomes os) := by
  unfold execDecFeed at h
  split at h
  · next d os hd => exact ⟨d, os, hd, (Host.Outcome.next.inj h).symm⟩
  · cases h

@[simp] theorem joinOutcomes_outcomes (os ps : List DecOutcome) :
    joinOutcomes (.outcomes os) (.outcomes ps) = .outcomes (os ++ ps) := rfl

/-- A further byte of a feed writes `DS` and adds its signal to the outcomes so far (R80, R165). -/
theorem continueFeed_next {b : Byte} {s t : State} (h : continueFeed b s = .next t) :
    ∃ d os, decodeBytes s.cfg s.rom [b] s.ds = .ok (d, os)
      ∧ t = (s.putDs d).putResult (joinOutcomes s.result (.outcomes os)) := by
  unfold continueFeed at h
  split at h
  · next u hu =>
    obtain ⟨d, os, hd, rfl⟩ := execDecFeed_next hu
    exact ⟨d, os, hd, (Host.Outcome.next.inj h).symm⟩
  · cases h
  · cases h

theorem continueFeed_of {b : Byte} {s : State} {d : DecState} {os : List DecOutcome}
    (h : decodeBytes s.cfg s.rom [b] s.ds = .ok (d, os)) :
    continueFeed b s = .next ((s.putDs d).putResult (joinOutcomes s.result (.outcomes os))) := by
  simp only [continueFeed, execDecFeed_of h]
  rfl

@[simp] theorem firstStep_decFeed (l : Bytes) : firstStep (.decFeed l) = .decFeed (l.take 1) := rfl

@[simp] theorem laterBytes_decFeed (l : Bytes) : laterBytes (.decFeed l) = l.drop 1 := rfl

/-- Every operation but `DEC_FEED` is one step (R4). -/
theorem firstStep_whole {i : Instr} (h : ∀ l, i ≠ .decFeed l) : firstStep i = i ∧ laterBytes i = [] := by
  cases i with
  | decFeed l => exact absurd rfl (h l)
  | _ => exact ⟨rfl, rfl⟩

/-- The packets offered after a byte step are fresh: their cursor is 0 (R18). -/
theorem decodeByte_offered {cfg : Config} {rom : Vector U16 256} {b : Byte} {d d' : DecState} {o : DecOutcome}
    (h : decodeByte cfg rom b d = .ok (d', o)) (p : Packet) (hp : o.packet? = some p) : p.index = 0 := by
  rcases decodeByte_cases h with
    ⟨-, -, rfl⟩ | ⟨-, -, rfl⟩ | ⟨-, -, rfl⟩ | ⟨-, -, -, rfl⟩ | ⟨-, -, rfl⟩ | ⟨-, -, rfl⟩ | ⟨-, -, rfl⟩
  case inr.inr.inr.inr.inr.inr =>
    unfold verify at hp
    split at hp
    · cases hp
      rfl
    · cases hp
  all_goals cases hp

theorem signal_packets (o : DecOutcome) : o.signal.filterMap DecOutcome.packet? = o.packet?.toList := by
  cases o <;> rfl

end Sys2Proof.Machine
end

