-- ==== Sys2Proof/Laws/PerInstr.lean ====
section
/-! SUPPORT. For every instruction, the row of spec/opcode_table.json that its encoded command word belongs to. -/

namespace Sys2Proof.Laws.EncodedWord

/-- The mnemonics of the command-word rows that a request's word fits; none for what has no command word. -/
def rowsFit (r : Request) : List String :=
  match r with
  | .command cmd _ => (commandRows.filter (·.fits cmd)).map (·.mnemonic)
  | .wire _ | .feed _ | .fromFields _ _ => []

/-- The command-word row an instruction stands for (R63): wire rows, pseudo-operations and reserved words have none. -/
def rowOf (i : Instr) : List String :=
  match i with
  | .startShort => []
  | .startLong => []
  | .startIgnored _ => []
  | .terminator => []
  | .decReset => ["DEC_RESET"]
  | .decByte _ => ["DEC_BYTE"]
  | .crc16 _ => ["CRC16"]
  | .pktEmpty _ => ["PKT_EMPTY"]
  | .pktFromBytes _ _ => ["PKT_FROM_BYTES"]
  | .append8 _ _ _ => ["APPEND.8"]
  | .append16 _ _ _ => ["APPEND.16"]
  | .append32 _ _ _ => ["APPEND.32"]
  | .read8 _ _ _ => ["READ.8"]
  | .read16 _ _ _ => ["READ.16"]
  | .read32 _ _ _ => ["READ.32"]
  | .remaining _ => ["REMAINING"]
  | .serialize _ => ["SERIALIZE"]
  | .reset => ["RESET"]
  | .decFeed _ => []
  | .pktFromFields _ _ => []
  | .reserved _ => []

/-- The encoded word fits exactly the rows of the table that the instruction stands for. -/
def Statement (i : Instr) : Prop := i.wf = true → rowsFit (encode i) = rowOf i

theorem startShort : Statement .startShort := fun _ => rfl

theorem startLong : Statement .startLong := fun _ => rfl

theorem startIgnored (b : Byte) : Statement (.startIgnored b) := fun _ => rfl

theorem terminator : Statement .terminator := fun _ => rfl

theorem decReset : Statement .decReset := fun _ => rfl

theorem decByte (b : Byte) : Statement (.decByte b) := fun _ => rfl

theorem crc16 (l : Bytes) : Statement (.crc16 l) := fun _ => rfl

theorem pktEmpty (pk : PktName) : Statement (.pktEmpty pk) := fun _ => rfl

theorem pktFromBytes (pk : PktName) (l : Bytes) : Statement (.pktFromBytes pk l) := fun _ => rfl

theorem append8 (pk : PktName) (v : Rat) (scale : Rat) : Statement (.append8 pk v scale) := fun _ => rfl

theorem append16 (pk : PktName) (v : Rat) (scale : Rat) : Statement (.append16 pk v scale) := fun _ => rfl

theorem append32 (pk : PktName) (v : Rat) (scale : Rat) : Statement (.append32 pk v scale) := fun _ => rfl

theorem read8 (pk : PktName) (scale : Rat) (adv : Bool) : Statement (.read8 pk scale adv) := by
  intro _
  cases adv <;> rfl

theorem read16 (pk : PktName) (scale : Rat) (adv : Bool) : Statement (.read16 pk scale adv) := by
  intro _
  cases adv <;> rfl

theorem read32 (pk : PktName) (scale : Rat) (adv : Bool) : Statement (.read32 pk scale adv) := by
  intro _
  cases adv <;> rfl

theorem remaining (pk : PktName) : Statement (.remaining pk) := fun _ => rfl

theorem serialize (src : PayloadArg) : Statement (.serialize src) := fun _ => rfl

theorem reset : Statement .reset := fun _ => rfl

theorem decFeed (l : Bytes) : Statement (.decFeed l) := fun _ => rfl

theorem pktFromFields (pk : PktName) (fields : List FieldArg) : Statement (.pktFromFields pk fields) := fun _ => rfl

/-- No row of the table fits a reserved word (R63). -/
theorem reserved_fits_none : ∀ cmd : Byte, (!assignedCommand cmd) = true →
    (commandRows.filter (·.fits cmd)).map (·.mnemonic) = [] := by decide +kernel

theorem reserved (cmd : Byte) : Statement (.reserved cmd) := by
  intro h
  exact reserved_fits_none cmd h

end Sys2Proof.Laws.EncodedWord
end

