-- ==== Sys2Proof/Laws/Step.lean ====
section
/-! SUPPORT. What one step can do, said once. -/

namespace Sys2Proof.Machine

/-- Every way a step completes: the next byte of a `DEC_FEED` in progress; no move; a packet taken; two overlapping
invocations put in order; the first step of a decoded request. -/
theorem step_cases {s t : State} (h : step s = .next t) :
    (∃ b l, s.feeding = b :: l ∧ continueFeed b (s.putFeeding l) = .next t)
      ∨ s.feeding = []
        ∧ (s.pending = [] ∧ t = s
          ∨ (∃ pk k rest, s.pending = .take pk k :: rest ∧ takeOffered pk k (s.putPending rest) = .next t)
          ∨ (∃ r₁ r₂ rest, s.pending = .overlapping r₁ r₂ :: rest
            ∧ overlapRequests r₁ r₂ (s.putPending rest) = .next t)
          ∨ ∃ r rest i, s.pending = .call r :: rest ∧ decode s.ds.phase r = .ok i
            ∧ exec (firstStep i) ((s.putPending rest).putFeeding (laterBytes i)) = .next t) := by
  unfold step at h
  split at h
  · next b l hf => exact .inl ⟨b, l, hf, h⟩
  · next hf =>
    refine .inr ⟨hf, ?_⟩
    unfold runMove at h
    split at h
    · next hp => exact .inl ⟨hp, (Host.Outcome.next.inj h).symm⟩
    · next pk k rest hp => exact .inr (.inl ⟨pk, k, rest, hp, h⟩)
    · next r₁ r₂ rest hp => exact .inr (.inr (.inl ⟨r₁, r₂, rest, hp, h⟩))
    · next r rest hp =>
      split at h
      · next i hd => exact .inr (.inr (.inr ⟨r, rest, i, hp, hd, h⟩))
      · next e _ =>
        cases e
        cases h

end Sys2Proof.Machine
end

