-- ==== Sys2Proof/Tests/Slice0.lean ====
section
/-! SUPPORT. Tests. Expected values are the spec's: the tables of 30_encoding.md R63 and 42_crc_engine.md R94, and the
vectors of 95_test_vectors.md (named V-…, P… after that file). Then, for every obligation with hypotheses, a state and
operands that meet them. -/

namespace Sys2Proof.Tests

open Sys2Proof Sys2Proof.Machine

/-! Small states. -/

/-- After reset, with the decoder at `d`. -/
def atDec (d : DecState) : State := { State.reset with ds := d }

/-- A state with a valid frame of payload `AA` short of its terminator (V-D8). -/
def beforeEnd : State := atDec ⟨.terminate, [0xAA], 1, 0x14A0⟩

/-- After reset, with the packet `p` named 5. -/
def withPkt (p : Packet) : State := { State.reset with pkts := [(5, p)] }

/-- After reset, with these moves to come. -/
def withMoves (l : List Input) : State := { State.reset with pending := l }

/-- The next state, if the outcome is one. -/
def nextOf (o : Host.Outcome State Fault Refusal) : Option State :=
  match o with
  | .next t => some t
  | .fault _ => none
  | .refused _ => none

/-- The refusal, if the outcome is one. -/
def refusalOf (o : Host.Outcome State Fault Refusal) : Option Refusal :=
  match o with
  | .next _ => none
  | .fault _ => none
  | .refused r => some r

/-- What an operation returns. -/
def resultOf (o : Host.Outcome State Fault Refusal) : Option Result := (nextOf o).map (·.result)

/-- What an operation leaves in the decoder and returns. -/
def decOf (o : Host.Outcome State Fault Refusal) : Option (DecState × Result) := (nextOf o).map fun t => (t.ds, t.result)

/-- The packet named 5 after an operation, and what it returns. -/
def pktOf (o : Host.Outcome State Fault Refusal) : Option (Option Packet × Result) :=
  (nextOf o).map fun t => (t.pkts.get 5, t.result)

/-- A next state with a property that evaluation decides. -/
theorem exists_next {o : Host.Outcome State Fault Refusal} {P : State → Prop} [DecidablePred P]
    (h : (nextOf o).any (fun t => decide (P t)) = true) : ∃ t, o = .next t ∧ P t := by
  cases o <;> simp_all [nextOf]

theorem refused_of_refusalOf {o : Host.Outcome State Fault Refusal} {r : Refusal} (h : refusalOf o = some r) :
    o = .refused r := by
  cases o <;> simp_all [refusalOf]

/-! Well-formedness: one ill-formed term for each check. -/

theorem test_wf_refuses_ignored_marker :
    (Instr.startIgnored 0x02).wf = false ∧ (Instr.startIgnored 0x03).wf = false ∧ (Instr.startIgnored 0x04).wf = true := by
  decide

theorem test_wf_refuses_assigned_reserved : (Instr.reserved 0x10).wf = false ∧ (Instr.reserved 0xA0).wf = true := by
  decide

theorem test_wf_refuses_width :
    (Instr.pktFromFields 5 [⟨16, 1, 1⟩, ⟨24, 1, 1⟩]).wf = false ∧ (Instr.pktFromFields 5 [⟨16, 1, 1⟩]).wf = true := by
  decide

theorem test_config_wf : (Config.mk (some 65534) none).wf = false ∧ (Config.mk (some 65535) none).wf = true := by decide

/-! Decoding: each word written out from R63, `op[7:4] ws[3:2] adv[1] 0[0]`, and each wire byte from R53 and R56. -/

theorem test_decode_start_markers :
    decode .start (.wire 0b00000010) = .ok .startShort ∧ decode .start (.wire 0b00000011) = .ok .startLong
      ∧ decode .start (.wire 0b11111111) = .ok (.startIgnored 0xFF) := ⟨rfl, rfl, rfl⟩

theorem test_decode_terminator :
    decode .terminate (.wire 0b00000011) = .ok .terminator ∧ decode .terminate (.wire 0x04) = .ok (.decByte 0x04)
      ∧ decode .payload (.wire 0x03) = .ok (.decByte 0x03) := ⟨rfl, rfl, rfl⟩

theorem test_decode_decoder_words (ph : Phase) :
    decode ph (.command 0b00010000 .unit) = .ok .decReset
      ∧ decode ph (.command 0b00100000 (.byte 0x7E)) = .ok (.decByte 0x7E)
      ∧ decode ph (.command 0b11110000 .unit) = .ok .reset ∧ decode ph (.feed [1, 2]) = .ok (.decFeed [1, 2]) :=
  ⟨rfl, rfl, rfl, rfl⟩

theorem test_decode_crc_and_frame_words (ph : Phase) :
    decode ph (.command 0b00110000 (.bytes [1])) = .ok (.crc16 [1])
      ∧ decode ph (.command 0b10010000 (.payload (.lit [1]))) = .ok (.serialize (.lit [1])) := ⟨rfl, rfl⟩

theorem test_decode_packet_words (ph : Phase) :
    decode ph (.command 0b01000000 (.name 5)) = .ok (.pktEmpty 5)
      ∧ decode ph (.command 0b01010000 (.nameBytes 5 [1])) = .ok (.pktFromBytes 5 [1])
      ∧ decode ph (.command 0b10000000 (.name 5)) = .ok (.remaining 5)
      ∧ decode ph (.fromFields 5 [⟨8, 1, 1⟩]) = .ok (.pktFromFields 5 [⟨8, 1, 1⟩]) := ⟨rfl, rfl, rfl, rfl⟩

theorem test_decode_append_words (ph : Phase) (v scale : Rat) :
    decode ph (.command 0b01100000 (.field 5 v scale)) = .ok (.append8 5 v scale)
      ∧ decode ph (.command 0b01100100 (.field 5 v scale)) = .ok (.append16 5 v scale)
      ∧ decode ph (.command 0b01101000 (.field 5 v scale)) = .ok (.append32 5 v scale) := ⟨rfl, rfl, rfl⟩

theorem test_decode_read_peek_words (ph : Phase) (scale : Rat) :
    decode ph (.command 0b01110000 (.scaled 5 scale)) = .ok (.read8 5 scale false)
      ∧ decode ph (.command 0b01110100 (.scaled 5 scale)) = .ok (.read16 5 scale false)
      ∧ decode ph (.command 0b01111000 (.scaled 5 scale)) = .ok (.read32 5 scale false) := ⟨rfl, rfl, rfl⟩

theorem test_decode_read_advance_words (ph : Phase) (scale : Rat) :
    decode ph (.command 0b01110010 (.scaled 5 scale)) = .ok (.read8 5 scale true)
      ∧ decode ph (.command 0b01110110 (.scaled 5 scale)) = .ok (.read16 5 scale true)
      ∧ decode ph (.command 0b01111010 (.scaled 5 scale)) = .ok (.read32 5 scale true) := ⟨rfl, rfl, rfl⟩

/-- 95_test_vectors.md 2.5: the reserved words it lists. -/
theorem test_decode_reserved_words :
    [0x00, 0xA0, 0xE0, 0x6C, 0x7C, 0x7E, 0x62, 0x21, 0x71, 0x24].map (fun c => decodeOp (BitVec.ofNat 8 c))
      = List.replicate 10 none := by decide

/-- Operands of another shape are rejected by name. -/
theorem test_decode_wrong_operands :
    decode .start (.command 0x20 .unit) = .error (.wrongOperands 0x20)
      ∧ refusalOf (step (withMoves [.call (.command 0x20 .unit)])) = some (.wrongOperands 0x20) := ⟨rfl, rfl⟩

/-- No word belongs to two rows of the table. -/
theorem test_table_rows_disjoint :
    commandRows.Pairwise fun r q => ¬ (r.value ^^^ q.value) &&& (r.mask &&& q.mask) = 0 := by decide

/-- The decoder, the well-formedness check and the table agree on which words are assigned. -/
theorem test_assigned_words_agree : ∀ cmd : Byte,
    (decodeOp cmd).isSome = assignedCommand cmd ∧ commandRows.any (·.fits cmd) = assignedCommand cmd := by decide +kernel

/-! The words of the table as the host asks for them. -/

theorem test_table_words :
    decodeTableWord 8 0x02 = some .startShort ∧ decodeTableWord 8 0x03 = some .startLong
      ∧ decodeTableWord 8 0x7A = some (.read32 0 1 true) ∧ decodeTableWord 8 0xF0 = some .reset
      ∧ decodeTableWord 8 0x100 = none ∧ decodeTableWord 16 0x02 = none := by decide +kernel

/-- Every word of the table runs as the first operation after reset. -/
theorem test_table_words_step :
    [0x02, 0x03, 0x10, 0x20, 0x30, 0x40, 0x50, 0x60, 0x64, 0x68, 0x70, 0x72, 0x74, 0x76, 0x78, 0x7A, 0x80, 0x90, 0xF0].all
      (fun w => (nextOf (step (State.reset.withFetchWord 8 w))).isSome) = true := by decide +kernel

/-! CRC Engine. -/

/-- V-C1, V-C3, V-C9. -/
theorem test_crc16_source_payload :
    [[], [0x01], [0x01, 0x02, 0x03]].map (fun l => resultOf (exec (.crc16 l) State.reset))
      = [some (.crc 0x0000), some (.crc 0x1021), some (.crc 0x6131)] := by decide +kernel

/-- V-C16, V-C10. -/
theorem test_crc16_check_value :
    [[0x31, 0x32, 0x33, 0x34, 0x35, 0x36, 0x37, 0x38, 0x39], [0x00, 0x01, 0x02, 0x03]].map
      (fun l => resultOf (exec (.crc16 l) State.reset)) = [some (.crc 0x31C3), some (.crc 0x6131)] := by decide +kernel

/-! Frame Encoder. -/

/-- V-E6, V-E1. -/
theorem test_serialize_short :
    resultOf (exec (.serialize (.lit [0x01, 0x02, 0x03])) State.reset)
        = some (.bytes [0x02, 0x03, 0x01, 0x02, 0x03, 0x61, 0x31, 0x03])
      ∧ resultOf (exec (.serialize (.message 5)) (withPkt ⟨[], 0⟩))
        = some (.bytes [0x02, 0x00, 0x00, 0x00, 0x03]) := by decide +kernel

/-- V-E9's header, and V-E10 whole: the boundary between the two forms, with the checksum of V-C18. -/
theorem test_serialize_boundary :
    frameHeader 255 = [0x02, 0xFF]
      ∧ (serializeFrame crcTable ((List.range 256).map (BitVec.ofNat 8))).toOption
        = some ([0x03, 0x01, 0x00] ++ (List.range 256).map (BitVec.ofNat 8) ++ [0x7E, 0x55, 0x03]) := by decide +kernel

/-! Frame Decoder. -/

/-- V-D1, its states before the last byte and after it. -/
theorem test_decFeed_trace :
    decOf (exec (.decFeed [0x02, 0x03, 0x01, 0x02, 0x03, 0x61, 0x31]) State.reset)
        = some (⟨.terminate, [0x01, 0x02, 0x03], 3, 0x6131⟩, .outcomes [])
      ∧ decOf (exec (.decFeed [0x02, 0x03, 0x01, 0x02, 0x03, 0x61, 0x31, 0x03]) State.reset)
        = some (⟨.start, [], 0, 0⟩, .outcomes [.success ⟨[0x01, 0x02, 0x03], 0⟩]) := by decide +kernel

/-- V-D12: a rejected frame, noise, a good frame, in one chunk; V-D9: the zero-length frame. -/
theorem test_decFeed_resynchronises :
    resultOf (exec (.decFeed [0x02, 0x03, 0x01, 0x02, 0x03, 0x61, 0x30, 0x03, 0xFF, 0x00, 0x02, 0x03, 0x01, 0x02, 0x03,
        0x61, 0x31, 0x03]) State.reset) = some (.outcomes [.failure, .success ⟨[0x01, 0x02, 0x03], 0⟩])
      ∧ decOf (exec (.decFeed [0x02, 0x00, 0x00, 0x00, 0x03]) State.reset)
        = some (⟨.payload, [0x00, 0x00, 0x03], 0, 0⟩, .outcomes []) := by decide +kernel

/-- V-D8: the long form's phases, byte by byte, from the state its trace gives before each byte. -/
theorem test_decByte_long_trace :
    decOf (exec (.decByte 0x03) State.reset) = some (⟨.lenHi, [], 0, 0⟩, .outcome .silent)
      ∧ decOf (exec (.decByte 0x00) (atDec ⟨.lenHi, [], 0, 0⟩)) = some (⟨.lenLo, [], 0, 0⟩, .outcome .silent)
      ∧ decOf (exec (.decByte 0x01) (atDec ⟨.lenLo, [], 0, 0⟩)) = some (⟨.payload, [], 1, 0⟩, .outcome .silent)
      ∧ decOf (exec (.decByte 0xAA) (atDec ⟨.payload, [], 1, 0⟩)) = some (⟨.crcHi, [0xAA], 1, 0⟩, .outcome .silent)
      ∧ decOf (exec (.decByte 0x14) (atDec ⟨.crcHi, [0xAA], 1, 0⟩))
        = some (⟨.crcLo, [0xAA], 1, 0x1400⟩, .outcome .silent)
      ∧ decOf (exec (.decByte 0xA0) (atDec ⟨.crcLo, [0xAA], 1, 0x1400⟩))
        = some (⟨.terminate, [0xAA], 1, 0x14A0⟩, .outcome .silent) := by decide +kernel

/-- V-D6, V-D7: either condition failing is a failure. -/
theorem test_decByte_rejects :
    decOf (exec (.decByte 0x04) (atDec ⟨.terminate, [0xAA], 1, 0x14A0⟩)) = some (⟨.start, [], 0, 0⟩, .outcome .failure)
      ∧ decOf (exec (.decByte 0x03) (atDec ⟨.terminate, [0xAA], 1, 0x14A1⟩))
        = some (⟨.start, [], 0, 0⟩, .outcome .failure) := by decide +kernel

/-- V-D1's first byte, V-D8's first byte, V-D11's first byte. -/
theorem test_start_rows :
    decOf (exec .startShort State.reset) = some (⟨.lenLo, [], 0, 0⟩, .outcome .silent)
      ∧ decOf (exec .startLong State.reset) = some (⟨.lenHi, [], 0, 0⟩, .outcome .silent)
      ∧ decOf (exec (.startIgnored 0xFF) State.reset) = some (⟨.start, [], 0, 0⟩, .outcome .silent) := by decide +kernel

/-- V-D8's last byte; and the same byte as payload, not as a terminator (V-D13). -/
theorem test_terminator :
    decOf (exec .terminator (atDec ⟨.terminate, [0xAA], 1, 0x14A0⟩))
        = some (⟨.start, [], 0, 0⟩, .outcome (.success ⟨[0xAA], 0⟩))
      ∧ decOf (step { atDec ⟨.payload, [], 1, 0⟩ with pending := [.call (.wire 0x03)] })
        = some (⟨.crcHi, [0x03], 1, 0⟩, .outcome .silent) := by decide +kernel

/-- V-D20 and P4: `DEC_RESET` leaves the lock-up and keeps the packets; `RESET` keeps none. -/
theorem test_resets :
    (nextOf (exec .decReset { withPkt ⟨[1], 0⟩ with ds := ⟨.payload, [0, 0, 3], 0, 0⟩ })).map (fun t => (t.ds, t.pkts))
        = some (⟨.start, [], 0, 0⟩, [(5, ⟨[1], 0⟩)])
      ∧ (nextOf (exec .reset { withPkt ⟨[1], 0⟩ with ds := ⟨.payload, [0, 0, 3], 0, 0⟩ })).map (fun t => (t.ds, t.pkts))
        = some (⟨.start, [], 0, 0⟩, []) := by decide +kernel

/-! Field Codec. -/

/-- V-F1 (source S2), and V-F5: truncated, not rounded. -/
theorem test_append_truncates :
    pktOf (exec (.append16 5 (25 / 2) 10) (withPkt ⟨[], 0⟩)) = some (some ⟨[0x00, 0x7D], 0⟩, .nothing)
      ∧ pktOf (exec (.append8 5 (999 / 1000) 10) (withPkt ⟨[0xEE], 1⟩)) = some (some ⟨[0xEE, 0x09], 1⟩, .nothing) := by
  decide +kernel

/-- V-F10, V-F12, V-F14, V-F17: the ends of each range. -/
theorem test_append_range_ends :
    pktOf (exec (.append8 5 255 1) (withPkt ⟨[], 0⟩)) = some (some ⟨[0xFF], 0⟩, .nothing)
      ∧ pktOf (exec (.append16 5 65535 1) (withPkt ⟨[], 0⟩)) = some (some ⟨[0xFF, 0xFF], 0⟩, .nothing)
      ∧ pktOf (exec (.append32 5 4294967295 1) (withPkt ⟨[], 0⟩)) = some (some ⟨[0xFF, 0xFF, 0xFF, 0xFF], 0⟩, .nothing)
      ∧ pktOf (exec (.append8 5 (-1 / 2) 1) (withPkt ⟨[], 0⟩)) = some (some ⟨[0x00], 0⟩, .nothing) := by decide +kernel

/-- V-F3. -/
theorem test_append32_big_endian :
    pktOf (exec (.append32 5 100000 1) (withPkt ⟨[], 0⟩)) = some (some ⟨[0x00, 0x01, 0x86, 0xA0], 0⟩, .nothing) := by
  decide +kernel

/-- V-F18, V-F19, V-F20, V-F22. -/
theorem test_append_refusals :
    refusalOf (exec (.append8 5 256 1) (withPkt ⟨[], 0⟩)) = some .fieldRange
      ∧ refusalOf (exec (.append8 5 (-1) 1) (withPkt ⟨[], 0⟩)) = some .fieldRange
      ∧ refusalOf (exec (.append16 5 65536 1) (withPkt ⟨[], 0⟩)) = some .fieldRange
      ∧ refusalOf (exec (.append16 5 1 0) (withPkt ⟨[], 0⟩)) = some .badScale := by decide +kernel

/-- V-F24, V-F30: unsigned; a truncated read. -/
theorem test_read8 :
    pktOf (exec (.read8 5 1 false) (withPkt ⟨[0x80], 0⟩)) = some (some ⟨[0x80], 0⟩, .value 128)
      ∧ pktOf (exec (.read8 5 1 true) (withPkt ⟨[0x01, 0x00], 2⟩))
        = some (some ⟨[0x01, 0x00], 2⟩, .error (.truncatedRead 8 0)) := by decide +kernel

/-- V-F26, V-F29, V-F27, V-F31. -/
theorem test_read16 :
    pktOf (exec (.read16 5 1 false) (withPkt ⟨[0x12, 0x34, 0x56, 0x78], 1⟩))
        = some (some ⟨[0x12, 0x34, 0x56, 0x78], 1⟩, .value 13398)
      ∧ pktOf (exec (.read16 5 1000 true) (withPkt ⟨[0x01, 0x00], 0⟩))
        = some (some ⟨[0x01, 0x00], 2⟩, .value (256 / 1000))
      ∧ resultOf (exec (.read16 5 (1 / 2) false) (withPkt ⟨[0x12, 0x34, 0x56, 0x78], 0⟩)) = some (.value 9320)
      ∧ pktOf (exec (.read16 5 1 true) (withPkt ⟨[0x01, 0x00], 1⟩))
        = some (some ⟨[0x01, 0x00], 1⟩, .error (.truncatedRead 16 1)) := by decide +kernel

/-- V-F25, V-F32. -/
theorem test_read32 :
    resultOf (exec (.read32 5 1 false) (withPkt ⟨[0x12, 0x34, 0x56, 0x78], 0⟩)) = some (.value 305419896)
      ∧ resultOf (exec (.read32 5 1 false) (withPkt ⟨[0, 1, 2, 3, 4, 5, 6], 4⟩)) = some (.error (.truncatedRead 32 3)) := by
  decide +kernel

/-- V-F33, V-F34. -/
theorem test_remaining :
    resultOf (exec (.remaining 5) (withPkt ⟨[0, 1, 2, 3, 4, 5, 6], 3⟩)) = some (.count 4)
      ∧ resultOf (exec (.remaining 5) (withPkt ⟨[], 0⟩)) = some (.count 0) := by decide +kernel

/-- P1 step 1, P3 step 1. -/
theorem test_packet_constructors :
    pktOf (exec (.pktEmpty 5) State.reset) = some (some ⟨[], 0⟩, .packet ⟨[], 0⟩)
      ∧ pktOf (exec (.pktFromBytes 5 [0x00, 0x01]) State.reset) = some (some ⟨[0x00, 0x01], 0⟩, .packet ⟨[0x00, 0x01], 0⟩) := by
  decide +kernel

/-- P5 step 1. -/
theorem test_pktFromFields :
    (nextOf (exec (.pktFromFields 5 [⟨8, 7, 1⟩, ⟨16, 3 / 2, 100⟩, ⟨16, 9 / 4, 100⟩, ⟨16, 65535 / 100, 100⟩])
        State.reset)).bind (·.pkts.get 5) = some ⟨[0x07, 0x00, 0x96, 0x00, 0xE1, 0xFF, 0xFF], 0⟩ := by decide +kernel

/-- R117: another width. -/
theorem test_pktFromFields_bad_width :
    refusalOf (exec (.pktFromFields 5 [⟨24, 1, 1⟩]) State.reset) = some (.badWidth 24) := by decide +kernel

/-! The caller's moves. -/

/-- The caller takes the packet of a `SUCCESS` outcome (P1 step 6 to 7). -/
theorem test_take :
    (nextOf (step { State.reset with result := .outcomes [.failure, .success ⟨[1], 0⟩], pending := [.take 5 0] })).map
        (fun t => (t.pkts, t.pending)) = some ([(5, ⟨[1], 0⟩)], []) := by decide +kernel

/-- R165, on V-D1's first two bytes: the first step of a feed runs one byte, and the next step the next. -/
theorem test_feed_steps :
    (nextOf (step (withMoves [.call (.feed [0x02, 0x03])]))).map (fun t => (t.ds, t.result, t.pending, t.feeding))
        = some (⟨.lenLo, [], 0, 0⟩, .outcomes [], [], [0x03])
      ∧ (nextOf (step { atDec ⟨.lenLo, [], 0, 0⟩ with result := .outcomes [], feeding := [0x03] })).map
        (fun t => (t.ds, t.result, t.feeding)) = some (⟨.payload, [], 3, 0⟩, .outcomes [], []) := by decide +kernel

/-- V-D8's last byte in a feed whose earlier frame was rejected: the outcomes so far are kept, and the caller's next move
waits for the feed to end (R80, R165, R39). -/
theorem test_feed_joins_outcomes :
    (nextOf (step { beforeEnd with
        result := .outcomes [.failure], feeding := [0x03, 0x02], pending := [.call (.command 0x10 .unit)] })).map
        (fun t => (t.ds, t.result, t.feeding, t.pending))
      = some (⟨.start, [], 0, 0⟩, .outcomes [.failure, .success ⟨[0xAA], 0⟩], [0x02], [.call (.command 0x10 .unit)]) := by
  decide +kernel

/-- R41: overlapping operations on the decoder. -/
theorem test_overlap :
    refusalOf (step (withMoves [.overlapping (.wire 0x02) (.command 0x10 .unit)])) = some .overlap
      ∧ (nextOf (step (withMoves [.overlapping (.wire 0x02) (.command 0x30 (.bytes []))]))).map (·.pending)
        = some [.call (.wire 0x02), .call (.command 0x30 (.bytes []))] := by decide +kernel

/-! Witnesses: for each obligation with hypotheses, a state and operands that meet them, at the ends of their ranges where
a clause has one. -/

/-- A state with finite capacities. -/
def capped (pcap mcap : Nat) : State := { State.reset with cfg := ⟨some pcap, some mcap⟩ }

theorem witness_StartPhaseReadsMarker : State.reset.ds.phase = .start := rfl

theorem witness_LenHiPhaseAssignsHighByte : (atDec ⟨.lenHi, [], 0, 0⟩).ds.phase = .lenHi := rfl

theorem witness_LenLoPhaseOrsLowByte : (atDec ⟨.lenLo, [], 0x0100, 0⟩).ds.phase = .lenLo := rfl

/-- One byte short of the capacity; and one byte short of the declared length. -/
theorem witness_PayloadPhaseAppendsThenTests :
    ∃ s : State, s.ds.phase = .payload ∧ (∀ c, s.cfg.payloadCap = some c → s.ds.payload.length < c)
      ∧ s.cfg.payloadCap = some 3 ∧ (s.ds.payload ++ [0]).length = s.ds.length.toNat :=
  ⟨{ capped 3 9 with ds := ⟨.payload, [1, 2], 3, 0⟩ }, rfl, by simp [capped], rfl, rfl⟩

theorem witness_CrcHiPhaseAssignsHighByte : (atDec ⟨.crcHi, [1], 1, 0⟩).ds.phase = .crcHi := rfl

theorem witness_CrcLoPhaseOrsLowByte : (atDec ⟨.crcLo, [1], 1, 0x1000⟩).ds.phase = .crcLo := rfl

/-- Both cases of the outcome. -/
theorem witness_TerminatePhaseVerifies :
    beforeEnd.ds.phase = .terminate ∧ crc16 beforeEnd.rom beforeEnd.ds.payload = beforeEnd.ds.crc
      ∧ crc16 beforeEnd.rom [0xAB] ≠ beforeEnd.ds.crc := by decide +kernel

/-- The payload at the smallest finite capacity R3 allows; a feed that fills a payload; a message one byte over its
capacity; a field that leaves its message one byte over, at both ends of its range. -/
theorem witness_CapacityOverflowIsRefused :
    (∃ s : State, s.ds.phase = .payload ∧ s.cfg.payloadCap = some 65535 ∧ s.ds.payload.length = 65535)
      ∧ (∃ s t : State, exec (.decFeed [1]) s = .next t ∧ t.ds.phase = .payload ∧ s.cfg.payloadCap = some 1
        ∧ t.ds.payload.length = 1)
      ∧ (∃ (s : State) (l : Bytes), s.cfg.msgCap = some 2 ∧ 2 < l.length)
      ∧ (∀ v ∈ ([0, 65535] : List Rat), (0 : Rat) < 1 ∧ 0 ≤ trunc (v * 1)
        ∧ trunc (v * 1) ≤ 2 ^ FieldWidth.w16.bits - 1 ∧ 2 < (⟨[7], 0⟩ : Packet).message.length + FieldWidth.w16.bits / 8)
      ∧ (∃ s : State, s.pkts.get 5 = some ⟨[7], 0⟩ ∧ s.cfg.msgCap = some 2)
      ∧ ∃ s t : State, exec (.pktFromFields 5 [⟨8, 7, 1⟩]) s = .next t ∧ t.pkts.get 5 = some ⟨[7], 0⟩
        ∧ s.cfg.msgCap = some 2 := by
  refine ⟨⟨{ capped 65535 9 with ds := ⟨.payload, List.replicate 65535 0, 0, 0⟩ }, rfl, rfl, List.length_replicate⟩,
    ⟨{ capped 1 9 with ds := ⟨.payload, [], 0, 0⟩ }, _, rfl, rfl, rfl, rfl⟩, ⟨capped 65535 2, [1, 2, 3], rfl, by decide⟩,
    by decide +kernel, ⟨{ capped 65535 2 with pkts := [(5, ⟨[7], 0⟩)] }, rfl, rfl⟩, ?_⟩
  obtain ⟨t, h, hp⟩ := exists_next (o := exec (.pktFromFields 5 [⟨8, 7, 1⟩]) (capped 65535 2))
    (P := fun t => t.pkts.get 5 = some ⟨[7], 0⟩) (by decide +kernel)
  exact ⟨_, t, h, hp, rfl⟩

theorem witness_StartMarkersSelectTheForm :
    State.reset.ds.phase = .start ∧ (0x01 : Byte) ≠ 0x02 ∧ (0x04 : Byte) ≠ 0x03 := by decide +kernel

theorem witness_WireRowsAreByteSteps : beforeEnd.ds.phase = .terminate := rfl

theorem witness_PhaseGivesWireByteItsRole :
    (0x04 : Byte) ≠ 0x02 ∧ (0x04 : Byte) ≠ 0x03 ∧ Phase.payload ≠ .start ∧ Phase.payload ≠ .terminate := by decide

theorem witness_ByteAndFeedAlwaysComplete : State.reset.cfg.payloadCap = none := rfl

/-- A silent byte step, and a terminating one. -/
theorem witness_SilenceExceptAtTerminatingByte :
    (∃ t, exec (.decByte 0x02) State.reset = .next t ∧ State.reset.ds.phase ≠ .terminate)
      ∧ ∃ t, exec (.decByte 0x03) beforeEnd = .next t ∧ beforeEnd.ds.phase = .terminate :=
  ⟨⟨_, rfl, by decide⟩, ⟨_, rfl, rfl⟩⟩

/-- Two frames with different pasts, one accepted and one rejected, then the same feed. -/
theorem witness_EveryFrameEndsFresh :
    ∃ (s₁ s₂ t₁ t₂ u₁ : State), s₁.ds ≠ s₂.ds ∧ s₁.rom = s₂.rom ∧ s₁.cfg = s₂.cfg
      ∧ exec (.decByte 0x03) s₁ = .next t₁ ∧ t₁.result ≠ .outcome .silent
      ∧ exec (.decByte 0x04) s₂ = .next t₂ ∧ t₂.result ≠ .outcome .silent
      ∧ exec (.decFeed [0x02]) t₁ = .next u₁ :=
  ⟨beforeEnd, atDec ⟨.terminate, [1], 1, 0⟩, _, _, _, by decide, rfl, rfl, rfl, by decide +kernel, rfl,
    by decide +kernel, rfl⟩

/-- A byte that signals and one that does not. -/
theorem witness_FeedIsByteSequence :
    (∃ (s₁ s₂ : State) (o : DecOutcome), exec (.decByte 0x03) beforeEnd = .next s₁ ∧ s₁.result = .outcome o ∧ o ≠ .silent
        ∧ exec (.decFeed [0x02]) s₁ = .next s₂ ∧ s₂.result = .outcomes [])
      ∧ ∃ (s₁ s₂ : State), exec (.decByte 0x02) State.reset = .next s₁ ∧ s₁.result = .outcome .silent
        ∧ exec (.decFeed []) s₁ = .next s₂ ∧ s₂.result = .outcomes [] :=
  ⟨⟨_, _, _, rfl, rfl, by decide +kernel, rfl, rfl⟩, ⟨_, _, rfl, rfl, rfl, rfl⟩⟩

/-- V-D3 with its cut before the last byte. -/
theorem witness_FeedSplitsAnywhere :
    (∃ (s₁ s₂ : State) (os : List DecOutcome), exec (.decFeed [0x02, 0x01, 0xAA, 0x14, 0xA0]) State.reset = .next s₁
        ∧ s₁.result = .outcomes [] ∧ exec (.decFeed [0x03]) s₁ = .next s₂ ∧ s₂.result = .outcomes os ∧ os ≠ [])
      ∧ ∃ t, exec (.decFeed ([0x02] ++ [0x01])) State.reset = .next t :=
  ⟨⟨_, _, _, rfl, rfl, rfl, rfl, by decide +kernel⟩, ⟨_, rfl⟩⟩

/-- The first and the last step of a feed; and each of the two ways a byte is presented by itself. -/
theorem witness_FeedIsOneStepPerByte :
    (∀ j ∈ [1, 2], ∃ s t : State, s.feeding = [] ∧ s.pending = [.call (.feed [0x02, 0x01])] ∧ 1 ≤ j
        ∧ j ≤ ([0x02, 0x01] : Bytes).length ∧ exec (.decFeed (([0x02, 0x01] : Bytes).take j)) s = .next t)
      ∧ (∃ (present : Byte → Request) (s t : State), (∀ b, present b = .wire b) ∧ s.feeding = []
        ∧ s.pending = [0x02, 0x01].map (fun b => .call (present b)) ++ [.call (.feed [])]
        ∧ exec (.decFeed [0x02, 0x01]) s = .next t)
      ∧ ∃ (present : Byte → Request) (s t : State), (∀ b, present b = .command 0x20 (.byte b)) ∧ s.feeding = []
        ∧ s.pending = [0x02].map (fun b => .call (present b)) ++ [] ∧ exec (.decFeed [0x02]) s = .next t := by
  refine ⟨fun j hj => ⟨withMoves [.call (.feed [0x02, 0x01])], ?_⟩,
    ⟨.wire, withMoves [.call (.wire 0x02), .call (.wire 0x01), .call (.feed [])], _, fun _ => rfl, rfl, rfl, rfl⟩,
    ⟨fun b => .command 0x20 (.byte b), withMoves [.call (.command 0x20 (.byte 0x02))], _, fun _ => rfl, rfl, rfl, rfl⟩⟩
  rcases List.mem_pair.mp hj with rfl | rfl <;> exact ⟨_, rfl, rfl, by decide, by decide, rfl⟩

/-- The lock-up with nothing swallowed and with bytes swallowed (V-D9), the operations that leave it, and the frame. -/
theorem witness_ZeroLengthHangs :
    State.reset.ds = ⟨.start, [], 0, 0⟩
      ∧ ((atDec ⟨.payload, [], 0, 0⟩).ds.hung ∧ (atDec ⟨.payload, [], 0, 0⟩).cfg.payloadCap = none)
      ∧ (∃ t, (atDec ⟨.payload, [0, 0, 3], 0, 0⟩).ds.hung
        ∧ exec (.decByte 0x03) (atDec ⟨.payload, [0, 0, 3], 0, 0⟩) = .next t
        ∧ Instr.decByte 0x03 ≠ .decReset ∧ Instr.decByte 0x03 ≠ .reset)
      ∧ (∃ t, exec .decReset (atDec ⟨.payload, [0, 0, 3], 0, 0⟩) = .next t)
      ∧ (∃ t, exec .reset (atDec ⟨.payload, [0, 0, 3], 0, 0⟩) = .next t)
      ∧ ∃ t, exec (.serialize (.lit [])) State.reset = .next t :=
  ⟨rfl, ⟨⟨rfl, rfl⟩, rfl⟩, ⟨_, ⟨rfl, rfl⟩, rfl, by decide, by decide⟩, ⟨_, rfl⟩, ⟨_, rfl⟩, ⟨_, rfl⟩⟩

/-- Both forms at the ends of their lengths. -/
theorem witness_FrameAttemptSignalsAtItsLastByte :
    State.reset.ds = ⟨.start, [], 0, 0⟩ ∧ State.reset.cfg.wf = true ∧ (capped 65535 9).cfg.wf = true
      ∧ (∀ n ∈ [1, 255], ∃ hdr l : Bytes, 1 ≤ l.length ∧ l.length = n
        ∧ hdr = [0x02, BitVec.ofNat 8 l.length] ∧ l.length ≤ 255)
      ∧ ∀ n ∈ [1, 255, 256, 65535], ∃ hdr l : Bytes, 1 ≤ l.length ∧ l.length = n
        ∧ hdr = [0x03, BitVec.ofNat 8 (l.length / 256), BitVec.ofNat 8 (l.length % 256)] ∧ l.length ≤ 65535 := by
  refine ⟨rfl, rfl, rfl, fun n hn => ?_, fun n hn => ?_⟩ <;>
    exact ⟨_, List.replicate n 0, by simp at hn ⊢; omega, by simp, rfl, by simp at hn ⊢; omega⟩

/-- The shortest and the longest payload. -/
theorem witness_SerializedFrameDecodes :
    State.reset.ds = ⟨.start, [], 0, 0⟩ ∧ State.reset.cfg.wf = true
      ∧ ∀ n ∈ [1, 65535], ∃ l : Bytes, l.length = n ∧ 1 ≤ l.length ∧ l.length ≤ 65535 := by
  refine ⟨rfl, rfl, fun n hn => ⟨List.replicate n 0, by simp, ?_, ?_⟩⟩ <;> simp at hn ⊢ <;> omega

/-- V-D4, V-D5: the frame of `01 02 03` with its low, then its high CRC byte changed. -/
theorem witness_CorruptedCrcByteIsRejected :
    ∃ (l pre : Bytes) (hi lo : Byte), State.reset.ds = ⟨.start, [], 0, 0⟩ ∧ State.reset.cfg.wf = true ∧ 1 ≤ l.length
      ∧ l.length ≤ 65535
      ∧ exec (.serialize (.lit l)) State.reset = .next { State.reset with result := .bytes (pre ++ [hi, lo, 0x03]) }
      ∧ (0x60 ≠ hi ∧ 0x30 ≠ lo) :=
  ⟨[0x01, 0x02, 0x03], [0x02, 0x03, 0x01, 0x02, 0x03], 0x61, 0x31, rfl, rfl, by decide, by decide, rfl, by decide⟩

/-- The second byte of V-C9's trace: index 12, entry 3273. -/
theorem witness_Crc16ReturnsChecksum :
    exec (.crc16 [0x01]) State.reset = .next { State.reset with result := .crc 0x1021 }
      ∧ State.reset.rom[((((0x1021 : U16) >>> 8) ^^^ (0x02 : Byte).setWidth 16) &&& 0xFF).toNat]? = some 0x3273 :=
  ⟨rfl, rfl⟩

theorem witness_DefaultTableDividesByPolynomial :
    (∃ t, State.reset.rom = crcTable ∧ exec (.crc16 [0x01]) State.reset = .next { State.reset with result := .crc 0x1021 }
      ∧ exec (.crc16 ([0x01] ++ [0x02])) State.reset = .next t)
      ∧ ([0x01, 0x02, 0x03] : Bytes).length = ([0x04, 0x05, 0x06] : Bytes).length
      ∧ State.reset.rom[0]? = some 0 := ⟨⟨_, rfl, rfl, rfl⟩, rfl, rfl⟩

theorem witness_DefaultTableDetectsByteChange : State.reset.rom = crcTable ∧ (0x00 : Byte) ≠ 0x01 := ⟨rfl, by decide⟩

theorem witness_PktEmptyCreates :
    ∃ t u, exec (.pktEmpty 5) State.reset = .next t ∧ exec (.remaining 5) t = .next u := ⟨_, _, rfl, rfl⟩

/-- A message that fills the capacity. -/
theorem witness_PktFromBytesCreates :
    ∀ c, (capped 65535 3).cfg.msgCap = some c → ([1, 2, 3] : Bytes).length ≤ c := by
  simp [capped]

/-- Fields at both ends of their ranges, into a capacity they fill exactly. -/
theorem witness_PktFromFieldsConcatenates :
    ∃ fields : List FieldArg,
      (∀ f ∈ fields, f.width ∈ [8, 16, 32] ∧ 0 < f.scale ∧ 0 ≤ trunc (f.value * f.scale)
        ∧ trunc (f.value * f.scale) ≤ 2 ^ f.width - 1)
      ∧ ∀ c, (capped 65535 8).cfg.msgCap = some c →
        (fields.flatMap fun f => beBytes (f.width / 8) (trunc (f.value * f.scale)).toNat).length ≤ c :=
  ⟨[⟨8, 0, 1⟩, ⟨8, 255, 1⟩, ⟨16, 65535 / 100, 100⟩, ⟨32, 4294967295, 1⟩], by decide +kernel,
    by simp [capped, beBytes]⟩

theorem witness_PktFromFieldsIsAppends :
    (∃ s₁ s₂, exec (.pktFromFields 5 [⟨8, 7, 1⟩]) State.reset = .next s₁
        ∧ exec (appendInstr .w16 5 (3 / 2) 100) s₁ = .next s₂)
      ∧ (∃ s₁, exec (.pktFromFields 5 [⟨8, 7, 1⟩]) State.reset = .next s₁
        ∧ exec (appendInstr .w8 5 256 1) s₁ = .refused .fieldRange)
      ∧ exec (.pktFromFields 5 [⟨8, 256, 1⟩]) State.reset = .refused .fieldRange := by
  obtain ⟨s₁, h₁, h₂, h₃⟩ := exists_next (o := exec (.pktFromFields 5 [⟨8, 7, 1⟩]) State.reset)
    (P := fun s₁ => (nextOf (exec (appendInstr .w16 5 (3 / 2) 100) s₁)).any (fun _ => decide True) = true
      ∧ refusalOf (exec (appendInstr .w8 5 256 1) s₁) = some .fieldRange) (by decide +kernel)
  obtain ⟨s₂, h₄, -⟩ := exists_next (P := fun _ => True) h₂
  exact ⟨⟨s₁, s₂, h₁, h₄⟩, ⟨s₁, h₁, refused_of_refusalOf h₃⟩,
    refused_of_refusalOf (by decide +kernel)⟩

theorem witness_TruncRoundsTowardZero : (0 : Rat) ≤ 1 / 2 ∧ (-1 / 2 : Rat) ≤ 0 := by decide +kernel

/-- Both ends of the range with a message that fills the capacity, and one beyond each end. -/
theorem witness_Append8StoresByte :
    (withPkt ⟨[], 0⟩).pkts.get 5 = some ⟨[], 0⟩ ∧ (0 : Rat) < 1
      ∧ (∀ x ∈ ([0, 255] : List Nat), trunc ((x : Rat) * 1) = (x : Int) ∧ x ≤ 255)
      ∧ (∀ c, (capped 65535 1).cfg.msgCap = some c → ([] : Bytes).length + 1 ≤ c)
      ∧ trunc ((-1) * 1) < 0 ∧ 255 < trunc (256 * 1) :=
  ⟨rfl, by decide +kernel, by decide +kernel, by simp [capped], by decide +kernel, by decide +kernel⟩

/-- Both ends of the range with a message that fills the capacity, and one beyond each end. -/
theorem witness_Append16StoresTwoBytes :
    (withPkt ⟨[], 0⟩).pkts.get 5 = some ⟨[], 0⟩ ∧ (0 : Rat) < 1
      ∧ (∀ x ∈ ([0, 65535] : List Nat), trunc ((x : Rat) * 1) = (x : Int) ∧ x ≤ 65535)
      ∧ (∀ c, (capped 65535 2).cfg.msgCap = some c → ([] : Bytes).length + 2 ≤ c)
      ∧ trunc ((-1) * 1) < 0 ∧ 65535 < trunc (65536 * 1) :=
  ⟨rfl, by decide +kernel, by decide +kernel, by simp [capped], by decide +kernel, by decide +kernel⟩

/-- Both ends of the range with a message that fills the capacity, and one beyond each end. -/
theorem witness_Append32StoresFourBytes :
    (withPkt ⟨[], 0⟩).pkts.get 5 = some ⟨[], 0⟩ ∧ (0 : Rat) < 1
      ∧ (∀ x ∈ ([0, 4294967295] : List Nat), trunc ((x : Rat) * 1) = (x : Int) ∧ x ≤ 4294967295)
      ∧ (∀ c, (capped 65535 4).cfg.msgCap = some c → ([] : Bytes).length + 4 ≤ c)
      ∧ trunc ((-1) * 1) < 0 ∧ 4294967295 < trunc (4294967296 * 1) :=
  ⟨rfl, by decide +kernel, by decide +kernel, by simp [capped], by decide +kernel, by decide +kernel⟩

/-- The last byte of a message, and the end of it. -/
theorem witness_Read8ReturnsByte :
    (∃ p : Packet, (withPkt p).pkts.get 5 = some p ∧ (0 : Rat) < 1 ∧ p.message[p.index]? = some 0x34)
      ∧ ∃ p : Packet, (withPkt p).pkts.get 5 = some p ∧ p.message.length - p.index < 1 :=
  ⟨⟨⟨[0x12, 0x34], 1⟩, rfl, by decide +kernel, rfl⟩, ⟨⟨[0x12, 0x34], 2⟩, rfl, by decide⟩⟩

/-- The last two bytes of a message, and one byte too few. -/
theorem witness_Read16ReturnsTwoBytes :
    (∃ p : Packet, (withPkt p).pkts.get 5 = some p ∧ (0 : Rat) < 1 ∧ p.message[p.index]? = some 0x34
        ∧ p.message[p.index + 1]? = some 0x56)
      ∧ ∃ p : Packet, (withPkt p).pkts.get 5 = some p ∧ p.message.length - p.index < 2
        ∧ p.message.length - p.index + 1 = 2 :=
  ⟨⟨⟨[0x12, 0x34, 0x56], 1⟩, rfl, by decide +kernel, rfl, rfl⟩, ⟨⟨[0x12, 0x34], 1⟩, rfl, by decide, by decide⟩⟩

/-- The last four bytes of a message, and one byte too few. -/
theorem witness_Read32ReturnsFourBytes :
    (∃ p : Packet, (withPkt p).pkts.get 5 = some p ∧ (0 : Rat) < 1 ∧ p.message[p.index]? = some 0x12
        ∧ p.message[p.index + 1]? = some 0x34 ∧ p.message[p.index + 2]? = some 0x56
        ∧ p.message[p.index + 3]? = some 0x78)
      ∧ ∃ p : Packet, (withPkt p).pkts.get 5 = some p ∧ p.message.length - p.index < 4
        ∧ p.message.length - p.index + 1 = 4 :=
  ⟨⟨⟨[0x00, 0x12, 0x34, 0x56, 0x78], 1⟩, rfl, by decide +kernel, rfl, rfl, rfl, rfl⟩,
    ⟨⟨[1, 2, 3, 4], 1⟩, rfl, by decide, by decide⟩⟩

/-- Scales of 0 and below; the widths next to the legal ones, as a first triple; a name that is no packet. -/
theorem witness_FieldDomainIsRefused :
    ((withPkt ⟨[], 0⟩).pkts.get 5 = some ⟨[], 0⟩ ∧ (0 : Rat) ≤ 0 ∧ (-1 : Rat) ≤ 0)
      ∧ (∃ t, exec (.pktFromFields 5 []) State.reset = .next t ∧ ∀ w ∈ [0, 7, 9, 15, 17, 31, 33], w ∉ [8, 16, 32])
      ∧ State.reset.pkts.get 5 = none :=
  ⟨⟨rfl, by decide +kernel, by decide +kernel⟩, ⟨_, rfl, by decide⟩, rfl⟩

/-- The cursor at the start and at the end. -/
theorem witness_RemainingCountsUnreadBytes :
    ∀ p ∈ ([⟨[1, 2, 3, 4], 0⟩, ⟨[1, 2, 3, 4], 4⟩] : List Packet),
      (withPkt p).pkts.get 5 = some p ∧ p.index ≤ p.message.length ∧ (0 : Rat) < 1 := by decide +kernel

/-- The source's 12.5 at scale 10, into a capacity of exactly two bytes. -/
theorem witness_FieldRoundTrip :
    (0 : Rat) < 10 ∧ 0 ≤ trunc ((25 / 2 : Rat) * 10) ∧ trunc ((25 / 2 : Rat) * 10) ≤ 2 ^ FieldWidth.w16.bits - 1
      ∧ (0 : Rat) ≤ 25 / 2 ∧ (∃ z : Int, (25 / 2 : Rat) * 10 = z)
      ∧ ∀ c, (capped 65535 2).cfg.msgCap = some c → FieldWidth.w16.bits / 8 ≤ c :=
  ⟨by decide +kernel, by decide +kernel, by decide +kernel, by decide +kernel, ⟨125, by decide +kernel⟩,
    by simp [capped, FieldWidth.bits]⟩

/-- Each form at both ends. -/
theorem witness_SerializeChoosesTheForm :
    (∀ n ∈ [0, 255], ∃ l : Bytes, l.length = n ∧ l.length ≤ 255)
      ∧ (∀ n ∈ [256, 65535], ∃ l : Bytes, l.length = n ∧ 256 ≤ l.length ∧ l.length ≤ 65535)
      ∧ (withPkt ⟨[1], 1⟩).pkts.get 5 = some ⟨[1], 1⟩ := by
  refine ⟨fun n hn => ⟨List.replicate n 0, by simp, ?_⟩, fun n hn => ⟨List.replicate n 0, by simp, ?_, ?_⟩, rfl⟩ <;>
    simp at hn ⊢ <;> omega

theorem witness_SerializeAppendsCrcAndTerminator : ∃ l : Bytes, l.length = 65535 ∧ l.length ≤ 65535 :=
  ⟨List.replicate 65535 0, List.length_replicate, List.length_replicate.le⟩

theorem witness_SerializeTooLongIsMalformed : ∃ l : Bytes, l.length = 65536 ∧ 65535 < l.length :=
  ⟨List.replicate 65536 0, List.length_replicate, by rw [List.length_replicate]; omega⟩

/-- Each reason a word is reserved; and an assigned word that has none. -/
theorem witness_ReservedCommandWordsAreRefused :
    (∀ c ∈ ([0x00, 0x6C, 0x24, 0x62, 0x21] : List Byte),
        decode .start (.command c .unit) = .ok (.reserved c))
      ∧ decode .start (.command 0x7A (.scaled 5 1)) ≠ .ok (.reserved 0x7A) := by
  refine ⟨?_, by simp [decode, decodeOp, decodeWidth, bindOperands, readInstr]⟩
  simp [decode, decodeOp, decodeWidth]

/-- A wire row of each kind, a reserved word and a pseudo-operation. -/
theorem witness_DecodeOfEncode :
    ((Instr.startIgnored 0xFF).wf = true ∧ (Instr.startIgnored 0xFF).readIn .start = true)
      ∧ (Instr.terminator.wf = true ∧ Instr.terminator.readIn .terminate = true)
      ∧ ((Instr.reserved 0xA0).wf = true ∧ (Instr.reserved 0xA0).readIn .payload = true)
      ∧ (Instr.pktFromFields 5 [⟨16, 1, 1⟩]).wf = true
      ∧ (Instr.pktFromFields 5 [⟨16, 1, 1⟩]).readIn .lenLo = true := by decide

theorem witness_EncodeOfDecode :
    decode .start (.command 0x7A (.scaled 5 1)) = .ok (.read32 5 1 true)
      ∧ (∀ b, Request.command 0x7A (.scaled 5 1) ≠ .wire b) ∧ ∀ c, Instr.read32 5 1 true ≠ .reserved c :=
  ⟨rfl, by simp, by simp⟩

/-- An operation that is one step; the first, the next and a refused byte of a feed. -/
theorem witness_StepRunsDecodedInstruction :
    (∃ s : State, s.feeding = [] ∧ s.pending = [.call (.wire 0x03)] ∧ decode s.ds.phase (.wire 0x03) = .ok .terminator
        ∧ ∀ l, Instr.terminator ≠ .decFeed l)
      ∧ (∃ s : State, s.feeding = [] ∧ s.pending = [.call (.feed [0x02, 0x01])]
        ∧ decode s.ds.phase (.feed [0x02, 0x01]) = .ok (.decFeed [0x02, 0x01]))
      ∧ (∃ (s t : State) (ps : List DecOutcome), s.feeding = [0x03, 0x02] ∧ s.result = .outcomes [.failure]
        ∧ exec (.decFeed [0x03]) { s with feeding := [0x02] } = .next t ∧ t.result = .outcomes ps ∧ ps ≠ [])
      ∧ ∃ s : State, s.feeding = [0x02]
        ∧ exec (.decFeed [0x02]) { s with feeding := [] } = .refused .payloadOverflow :=
  ⟨⟨{ beforeEnd with pending := [.call (.wire 0x03)] }, rfl, rfl, rfl, by simp⟩,
    ⟨withMoves [.call (.feed [0x02, 0x01])], rfl, rfl, rfl⟩,
    ⟨{ beforeEnd with result := .outcomes [.failure], feeding := [0x03, 0x02] }, _, _, rfl, rfl, rfl, rfl,
      by decide +kernel⟩,
    ⟨{ capped 1 9 with ds := ⟨.payload, [1], 0, 0⟩, feeding := [0x02] }, rfl, rfl⟩⟩

/-- No move; the first offered packet, filling the capacity, and one byte over it; one past the last. -/
theorem witness_StepHoldsAndTakes :
    (State.reset.feeding = [] ∧ State.reset.pending = [])
      ∧ (∃ s : State, s.feeding = [] ∧ s.pending = [.take 5 0] ∧ s.result.offered[0]? = some ⟨[1, 2], 0⟩
        ∧ ∀ c, s.cfg.msgCap = some c → ([1, 2] : Bytes).length ≤ c)
      ∧ (∃ s : State, s.feeding = [] ∧ s.pending = [.take 5 0] ∧ s.result.offered[0]? = some ⟨[1, 2], 0⟩
        ∧ s.cfg.msgCap = some 1 ∧ 1 < ([1, 2] : Bytes).length)
      ∧ ∃ s : State, s.feeding = [] ∧ s.pending = [.take 5 1] ∧ s.result.offered[1]? = none :=
  ⟨⟨rfl, rfl⟩, ⟨{ capped 65535 2 with result := .outcome (.success ⟨[1, 2], 0⟩), pending := [.take 5 0] }, rfl, rfl, rfl,
      by simp [capped]⟩,
    ⟨{ capped 65535 1 with result := .outcome (.success ⟨[1, 2], 0⟩), pending := [.take 5 0] }, rfl, rfl, rfl, rfl,
      by decide⟩,
    ⟨{ capped 65535 2 with result := .outcome (.success ⟨[1, 2], 0⟩), pending := [.take 5 1] }, rfl, rfl, rfl⟩⟩

/-- Each combination, and a decoded request of each kind. -/
theorem witness_OverlapOnDecoderIsRefused :
    (withMoves [.overlapping (.wire 0x02) (.feed [])]).pending = [.overlapping (.wire 0x02) (.feed [])]
      ∧ (withMoves [.overlapping (.wire 0x02) (.feed [])]).feeding = []
      ∧ (Request.wire 0x02).onDecoder = true ∧ (Request.feed []).onDecoder = true
      ∧ (Request.command 0x30 (.bytes [])).onDecoder = false
      ∧ decode .start (.command 0xF0 .unit) = .ok .reset ∧ decode .start (.command 0x40 (.name 5)) = .ok (.pktEmpty 5) :=
  ⟨rfl, rfl, rfl, rfl, rfl, rfl, rfl⟩

theorem witness_RomIsNeverWritten :
    (∃ t, exec (.decByte 0x02) State.reset = .next t)
      ∧ ∃ t, Sys2Proof.core.run 2 (withMoves [.call (.wire 0x02), .call (.wire 0x01)]) = .next t := ⟨⟨_, rfl⟩, ⟨_, rfl⟩⟩

theorem witness_CapacitiesAndMovesStand :
    (∃ t, exec (.pktEmpty 5) (withMoves [.call (.wire 0x02)]) = .next t)
      ∧ ∃ t, Sys2Proof.core.run 2 (withMoves [.call (.feed [0x02, 0x01])]) = .next t := ⟨⟨_, rfl⟩, ⟨_, rfl⟩⟩

theorem witness_OnlyDecoderOperationsTouchDS :
    onDecoder (.remaining 5) = false ∧ (∃ t, exec (.remaining 5) (withPkt ⟨[1], 0⟩) = .next t)
      ∧ exec (.remaining 5) State.reset = .refused (.noPacket 5) := ⟨rfl, ⟨_, rfl⟩, rfl⟩

/-- Each use of a packet. -/
theorem witness_PacketsChangeOnlyAsNamed :
    (∃ t, exec (.pktEmpty 5) State.reset = .next t ∧ packetUse (.pktEmpty 5) 5 = .creates)
      ∧ (∃ t, exec (.append8 5 0 1) (withPkt ⟨[], 0⟩) = .next t ∧ packetUse (.append8 5 0 1) 5 = .appends)
      ∧ (∃ t, exec (.read8 5 1 true) (withPkt ⟨[1], 0⟩) = .next t ∧ packetUse (.read8 5 1 true) 5 = .moves)
      ∧ (∃ t, exec .reset (withPkt ⟨[1], 0⟩) = .next t ∧ packetUse .reset 5 = .discards)
      ∧ ∃ t, exec (.pktEmpty 4) (withPkt ⟨[1], 0⟩) = .next t ∧ packetUse (.pktEmpty 4) 5 = .leaves := by
  exact ⟨⟨_, rfl, rfl⟩, exists_next (by decide +kernel), exists_next (by decide +kernel), ⟨_, rfl, rfl⟩, ⟨_, rfl, rfl⟩⟩

/-- An error of each kind: the corrupted frame of V-D7, the read of V-F30, 65536 bytes (V-E13). -/
theorem error_of_each_kind :
    (∃ t, exec (.decByte 0x03) (atDec ⟨.terminate, [0xAA], 1, 0x14A1⟩) = .next t
        ∧ t.result.errorKind = some .frameRejected ∧ t.result.errorCode = 1)
      ∧ (∃ t, exec (.read8 5 1 true) (withPkt ⟨[1, 0], 2⟩) = .next t ∧ t.result.errorKind = some .truncatedRead
        ∧ t.result.errorCode = 2)
      ∧ ∃ t l, exec (.serialize (.lit l)) State.reset = .next t ∧ t.result.errorKind = some .malformedLength
        ∧ t.result.errorCode = 3 := by
  obtain ⟨l, hl, h⟩ := witness_SerializeTooLongIsMalformed
  refine ⟨exists_next (by decide +kernel), exists_next (by decide +kernel),
    ⟨{ State.reset with result := .error (.malformedLength 65536) }, l, ?_, rfl, rfl⟩⟩
  show execSerialize (.lit l) State.reset = _
  simp only [execSerialize, withPayload, serializeFrame_tooLong _ h, hl]
  rfl

theorem witness_ErrorsWriteOnlyWhatTheTableSays :
    ∃ (i : Instr) (s t : State), exec i s = .next t ∧ t.result.errorKind = some .frameRejected := by
  obtain ⟨⟨t, h, hk, -⟩, -⟩ := error_of_each_kind
  exact ⟨_, _, t, h, hk⟩

theorem witness_ErrorsComeFromTheirOperations :
    (∃ (i : Instr) (s t : State), exec i s = .next t ∧ t.result.errorCode = 1)
      ∧ (∃ (i : Instr) (s t : State), exec i s = .next t ∧ t.result.errorCode = 2)
      ∧ ∃ (i : Instr) (s t : State), exec i s = .next t ∧ t.result.errorCode = 3 := by
  obtain ⟨⟨t, h, -, hc⟩, ⟨t', h', -, hc'⟩, ⟨t'', l, h'', -, hc''⟩⟩ := error_of_each_kind
  exact ⟨⟨_, _, t, h, hc⟩, ⟨_, _, t', h', hc'⟩, ⟨_, _, t'', h'', hc''⟩⟩

/-- Both orders. -/
theorem witness_DecoderAndCodecCommute :
    onDecoder (.decByte 0x02) = true ∧ Instr.decByte 0x02 ≠ .reset ∧ onDecoder (.pktEmpty 5) = false
      ∧ (∃ s₁ t₁, exec (.decByte 0x02) State.reset = .next s₁ ∧ exec (.pktEmpty 5) s₁ = .next t₁)
      ∧ ∃ s₁ t₁, exec (.pktEmpty 5) State.reset = .next s₁ ∧ exec (.decByte 0x02) s₁ = .next t₁ :=
  ⟨rfl, by decide, rfl, ⟨_, _, rfl, rfl⟩, ⟨_, _, rfl, rfl⟩⟩

/-- A decoder in mid-frame beside a half-read packet, in the middle of a feed. -/
theorem witness_StepKeepsInvariant :
    ∃ s t : State, s.Inv ∧ step s = .next t ∧ s.ds.phase = .payload ∧ s.pkts ≠ [] ∧ s.feeding ≠ [] :=
  ⟨{ capped 65535 2 with
      ds := ⟨.payload, [1], 3, 0⟩, pkts := [(5, ⟨[1, 2], 1⟩)], result := .outcomes [.failure], feeding := [0x02, 0x03] }, _,
    ⟨rfl, ⟨by simp, by simp, by simp, by simp, by simp, by simp, by simp, by decide⟩, rfl,
      by simp only [List.mem_singleton, forall_eq]; exact ⟨by decide, by decide⟩,
      by simp [Result.offered, DecOutcome.packet?], fun _ => ⟨_, rfl⟩⟩,
    rfl, rfl, by simp, by simp⟩

end Sys2Proof.Tests
end

section
/-! The codec's operations and the decoder state (R15): an operation that is not on the decoder runs the same with any `DS`
in place. That it leaves `DS` unchanged follows, by putting in place the `DS` already there. -/

namespace Sys2Proof.Machine

/-- Change the next state of an outcome by `f`; a fault or a refusal stays as it is. -/
def mapNext (f : State → State) (o : Host.Outcome State Fault Refusal) : Host.Outcome State Fault Refusal :=
  match o with
  | .next t => .next (f t)
  | .fault r => .fault r
  | .refused r => .refused r

/-- `op` neither reads nor writes `DS`: with `d` in place it does what it does without, and `d` is still in place after. -/
def IgnoresDs (op : State → Host.Outcome State Fault Refusal) : Prop :=
  ∀ (d : DecState) (s : State), op (s.putDs d) = mapNext (·.putDs d) (op s)

namespace IgnoresDs

theorem next_putDs {op : State → Host.Outcome State Fault Refusal} (hop : IgnoresDs op) (d : DecState) {s t : State}
    (h : op s = .next t) : op (s.putDs d) = .next (t.putDs d) := by
  rw [hop d s, h]
  rfl

theorem refused_putDs {op : State → Host.Outcome State Fault Refusal} (hop : IgnoresDs op) (d : DecState) {s : State}
    {r : Refusal} (h : op s = .refused r) : op (s.putDs d) = .refused r := by
  rw [hop d s, h]
  rfl

/-- Not reading `DS` is not writing it: put the `DS` of `s` in place, and the next state must carry it. -/
theorem next_ds {op : State → Host.Outcome State Fault Refusal} (hop : IgnoresDs op) {s t : State} (h : op s = .next t) :
    t.ds = s.ds := by
  have hsame : op s = .next (t.putDs s.ds) := hop.next_putDs s.ds h
  have ht : t = t.putDs s.ds := Host.Outcome.next.inj (h.symm.trans hsame)
  rw [ht, State.putDs_ds]

end IgnoresDs

/-! The shared operations. -/

theorem ignoresDs_refused (r : Refusal) : IgnoresDs fun _ => .refused r := fun _ _ => rfl

theorem ignoresDs_returnResult (r : Result) : IgnoresDs (returnResult r) := fun _ _ => rfl

theorem ignoresDs_raiseError (e : OpError) : IgnoresDs (raiseError e) := ignoresDs_returnResult (.error e)

theorem ignoresDs_createPacket (pk : PktName) (p : Packet) : IgnoresDs (createPacket pk p) := by
  intro d s
  by_cases hf : fits s.cfg.msgCap p.message.length = true
  · simp only [createPacket, State.putDs_cfg, hf, if_true]
    rfl
  · simp only [createPacket, State.putDs_cfg, hf]
    rfl

theorem ignoresDs_withPacket (pk : PktName) {k : State → Packet → Host.Outcome State Fault Refusal}
    (hk : ∀ p, IgnoresDs fun s => k s p) : IgnoresDs fun s => withPacket pk s (k s) := by
  intro d s
  simp only [withPacket, State.putDs_pkts]
  split
  · next p _ => exact hk p d s
  · rfl

theorem ignoresDs_withPayload (src : PayloadArg) {k : State → Bytes → Host.Outcome State Fault Refusal}
    (hk : ∀ l, IgnoresDs fun s => k s l) : IgnoresDs fun s => withPayload src s (k s) :=
  match src with
  | .lit l => hk l
  | .message pk => ignoresDs_withPacket pk (k := fun s p => k s p.message) fun p => hk p.message

/-! The codec's operations. -/

theorem ignoresDs_execPktFromFields (pk : PktName) (fields : List FieldArg) : IgnoresDs (execPktFromFields pk fields) := by
  intro d s
  simp only [execPktFromFields, State.putDs_cfg]
  split
  · rfl
  · next p _ => exact ignoresDs_createPacket pk p d s

theorem ignoresDs_appendTo (w : Nat) (pk : PktName) (v scale : Rat) : IgnoresDs (appendTo w pk v scale) := by
  refine ignoresDs_withPacket pk fun p d s => ?_
  simp only [State.putDs_cfg]
  split
  · rfl
  · rfl

theorem ignoresDs_readFrom (w : Nat) (pk : PktName) (scale : Rat) (adv : Bool) : IgnoresDs (readFrom w pk scale adv) := by
  refine ignoresDs_withPacket pk fun p => ?_
  split
  · next r _ => exact ignoresDs_refused r
  · split
    · exact ignoresDs_raiseError (.truncatedRead w p.remaining)
    · cases adv with
      | false => exact ignoresDs_returnResult _
      | true => exact fun _ _ => rfl

theorem ignoresDs_execRemaining (pk : PktName) : IgnoresDs (execRemaining pk) :=
  ignoresDs_withPacket pk fun p => ignoresDs_returnResult (.count p.remaining)

theorem ignoresDs_execSerialize (src : PayloadArg) : IgnoresDs (execSerialize src) := by
  refine ignoresDs_withPayload src fun l d s => ?_
  simp only [State.putDs_rom]
  split
  · rfl
  · rfl

theorem ignoresDs_execCrc16 (l : Bytes) : IgnoresDs (execCrc16 l) := fun _ _ => rfl

/-- R15, once for all operations that are not on the decoder. -/
theorem ignoresDs_exec {i : Instr} (hi : onDecoder i = false) : IgnoresDs (exec i) := by
  cases i with
  | startShort | startLong | startIgnored | terminator | decByte | decFeed | decReset | reset => cases hi
  | crc16 l => exact ignoresDs_execCrc16 l
  | pktEmpty pk => exact ignoresDs_createPacket pk ⟨[], 0⟩
  | pktFromBytes pk l => exact ignoresDs_createPacket pk ⟨l, 0⟩
  | append8 pk v scale => exact ignoresDs_appendTo 8 pk v scale
  | append16 pk v scale => exact ignoresDs_appendTo 16 pk v scale
  | append32 pk v scale => exact ignoresDs_appendTo 32 pk v scale
  | read8 pk scale adv => exact ignoresDs_readFrom 8 pk scale adv
  | read16 pk scale adv => exact ignoresDs_readFrom 16 pk scale adv
  | read32 pk scale adv => exact ignoresDs_readFrom 32 pk scale adv
  | remaining pk => exact ignoresDs_execRemaining pk
  | serialize src => exact ignoresDs_execSerialize src
  | pktFromFields pk fields => exact ignoresDs_execPktFromFields pk fields
  | reserved cmd => exact ignoresDs_refused (.reservedCommand cmd)

/-- Settles O53: the operation ignores `DS`, from which its frame, its next state and its refusal follow. -/
theorem onlyDecoderOperationsTouchDS : Obligations.OnlyDecoderOperationsTouchDS := by
  intro i s d hi
  have hop : IgnoresDs (exec i) := ignoresDs_exec hi
  exact ⟨fun t h => ⟨hop.next_ds h, hop.next_putDs d h⟩, fun r h => hop.refused_putDs d h⟩

end Sys2Proof.Machine
end

section
/-! What an operation and a step leave as it was (R42): an operation writes at most `DS`, the packets and its result, so the
constant data, `ROM` and the capacities, stand along every run. -/

namespace Sys2Proof.Machine

/-- `t` is `s` with at most `DS`, the packets and the result written. -/
def WritesAtMostDsPktsResult (s t : State) : Prop :=
  ∃ (d : DecState) (m : Memory) (r : Result), t = ((s.putDs d).putPkts m).putResult r

/-! The shared operations. -/

theorem writesAtMost_putResult (s : State) (r : Result) : WritesAtMostDsPktsResult s (s.putResult r) :=
  ⟨s.ds, s.pkts, r, rfl⟩

theorem writesAtMost_putPkts (s : State) (m : Memory) (r : Result) :
    WritesAtMostDsPktsResult s ((s.putPkts m).putResult r) := ⟨s.ds, m, r, rfl⟩

theorem writesAtMost_putDs (s : State) (d : DecState) (r : Result) :
    WritesAtMostDsPktsResult s ((s.putDs d).putResult r) := ⟨d, s.pkts, r, rfl⟩

theorem receiveByte_writesAtMost {b : Byte} {s t : State} (h : receiveByte b s = .next t) :
    WritesAtMostDsPktsResult s t := by
  obtain ⟨d, o, -, rfl⟩ := receiveByte_next h
  exact writesAtMost_putDs s d (.outcome o)

theorem execDecFeed_writesAtMost {l : Bytes} {s t : State} (h : execDecFeed l s = .next t) :
    WritesAtMostDsPktsResult s t := by
  obtain ⟨d, os, -, rfl⟩ := execDecFeed_next h
  exact writesAtMost_putDs s d (.outcomes os)

theorem createPacket_writesAtMost {pk : PktName} {p : Packet} {s t : State} (h : createPacket pk p s = .next t) :
    WritesAtMostDsPktsResult s t := by
  obtain ⟨-, rfl⟩ := createPacket_next h
  exact writesAtMost_putPkts s (s.pkts.set pk p) (.packet p)

theorem execPktFromFields_writesAtMost {pk : PktName} {fields : List FieldArg} {s t : State}
    (h : execPktFromFields pk fields s = .next t) : WritesAtMostDsPktsResult s t := by
  unfold execPktFromFields at h
  split at h
  · cases h
  · exact createPacket_writesAtMost h

theorem appendTo_writesAtMost {w : Nat} {pk : PktName} {v scale : Rat} {s t : State}
    (h : appendTo w pk v scale s = .next t) : WritesAtMostDsPktsResult s t := by
  obtain ⟨p, bs, -, -, -, rfl⟩ := appendTo_next h
  exact writesAtMost_putPkts s _ .nothing

theorem readFrom_writesAtMost {w : Nat} {pk : PktName} {scale : Rat} {adv : Bool} {s t : State}
    (h : readFrom w pk scale adv s = .next t) : WritesAtMostDsPktsResult s t := by
  obtain ⟨p, -, -, ⟨-, rfl⟩ | ⟨-, rfl⟩⟩ := readFrom_next h
  · exact writesAtMost_putResult s _
  · cases adv with
    | false => exact writesAtMost_putResult s _
    | true => exact writesAtMost_putPkts s _ _

theorem execRemaining_writesAtMost {pk : PktName} {s t : State} (h : execRemaining pk s = .next t) :
    WritesAtMostDsPktsResult s t := by
  obtain ⟨p, -, hp⟩ := withPacket_next h
  cases hp
  exact writesAtMost_putResult s (.count p.remaining)

theorem execSerialize_writesAtMost {src : PayloadArg} {s t : State} (h : execSerialize src s = .next t) :
    WritesAtMostDsPktsResult s t := by
  obtain ⟨r, rfl, -⟩ := execSerialize_next h
  exact writesAtMost_putResult s r

/-- The frame of every operation. -/
theorem exec_writesAtMost {i : Instr} {s t : State} (h : exec i s = .next t) : WritesAtMostDsPktsResult s t := by
  cases i with
  | startShort | startLong | startIgnored | terminator | decByte => exact receiveByte_writesAtMost h
  | decFeed l => exact execDecFeed_writesAtMost h
  | decReset =>
    cases h
    exact writesAtMost_putDs s .fresh .nothing
  | reset =>
    cases h
    exact ⟨.fresh, [], .nothing, rfl⟩
  | crc16 l =>
    cases h
    exact writesAtMost_putResult s (.crc (crc16 s.rom l))
  | pktEmpty | pktFromBytes => exact createPacket_writesAtMost h
  | pktFromFields pk fields => exact execPktFromFields_writesAtMost h
  | append8 | append16 | append32 => exact appendTo_writesAtMost h
  | read8 | read16 | read32 => exact readFrom_writesAtMost h
  | remaining pk => exact execRemaining_writesAtMost h
  | serialize src => exact execSerialize_writesAtMost h
  | reserved cmd => cases h

/-! The constant data. -/

/-- `ROM` and the capacities of `t` are those of `s`. -/
def SameConstants (s t : State) : Prop := t.rom = s.rom ∧ t.cfg = s.cfg

theorem WritesAtMostDsPktsResult.sameConstants {s t : State} (h : WritesAtMostDsPktsResult s t) : SameConstants s t := by
  obtain ⟨d, m, r, rfl⟩ := h
  exact ⟨rfl, rfl⟩

theorem SameConstants.trans {s t u : State} (hst : SameConstants s t) (htu : SameConstants t u) : SameConstants s u :=
  ⟨htu.1.trans hst.1, htu.2.trans hst.2⟩

/-- A step runs an operation, or takes a packet, or puts two requests in order, or holds the state; the bytes and moves it
uses up are not constants. -/
theorem step_sameConstants {s t : State} (h : step s = .next t) : SameConstants s t := by
  rcases step_cases h with ⟨b, l, -, hfeed⟩ | ⟨-, hmove⟩
  · obtain ⟨d, os, -, rfl⟩ := continueFeed_next hfeed
    exact ⟨rfl, rfl⟩
  · rcases hmove with ⟨-, rfl⟩ | ⟨pk, k, rest, -, htake⟩ | ⟨r₁, r₂, rest, -, hover⟩ | ⟨r, rest, i, -, -, hexec⟩
    · exact ⟨rfl, rfl⟩
    · obtain ⟨p, -, -, rfl⟩ := takeOffered_next htake
      exact ⟨rfl, rfl⟩
    · obtain ⟨-, rfl⟩ := overlapRequests_next hover
      exact ⟨rfl, rfl⟩
    · exact (exec_writesAtMost hexec).sameConstants

/-- A run that completes at least one step: its first step, then the rest. -/
theorem run_succ_next {k : Nat} {s t : State} (h : Sys2Proof.core.run (k + 1) s = .next t) :
    ∃ u, step s = .next u ∧ Sys2Proof.core.run k u = .next t := by
  simp only [Host.Core.run] at h
  split at h
  · next u hu => exact ⟨u, hu, h⟩
  · cases h
  · cases h

theorem run_sameConstants {k : Nat} {s t : State} (h : Sys2Proof.core.run k s = .next t) : SameConstants s t := by
  induction k generalizing s with
  | zero =>
    cases h
    exact ⟨rfl, rfl⟩
  | succ k ih =>
    obtain ⟨u, hstep, hrun⟩ := run_succ_next h
    exact (step_sameConstants hstep).trans (ih hrun)

/-- Settles O52: the frame of an operation, and the constants along a run, leave `ROM` out. -/
theorem romIsNeverWritten : Obligations.RomIsNeverWritten :=
  ⟨fun _ _ _ h => (exec_writesAtMost h).sameConstants.1, fun _ _ _ h => (run_sameConstants h).1⟩

end Sys2Proof.Machine
end

section
/-! A byte received in phase 0 (R53, R71): it selects the form or is ignored, and the step is silent. -/

namespace Sys2Proof.Machine

theorem phaseStart_startShort (d : DecState) : phaseStart Config.startShort d = { d with phase := .lenLo } :=
  if_pos rfl

theorem phaseStart_startLong (d : DecState) : phaseStart Config.startLong d = { d with phase := .lenHi } := by
  have hne : Config.startLong ≠ Config.startShort := by decide
  rw [phaseStart, if_neg hne, if_pos rfl]

theorem phaseStart_ignored {b : Byte} (hshort : b ≠ Config.startShort) (hlong : b ≠ Config.startLong) (d : DecState) :
    phaseStart b d = d := by
  rw [phaseStart, if_neg hshort, if_neg hlong]

theorem decodeByte_start {d : DecState} (h : d.phase = .start) (cfg : Config) (rom : Vector U16 256) (b : Byte) :
    decodeByte cfg rom b d = .ok (phaseStart b d, .silent) := by
  simp only [decodeByte, h]

theorem receiveByte_start {s : State} (h : s.ds.phase = .start) (b : Byte) :
    receiveByte b s = .next ((s.putDs (phaseStart b s.ds)).putResult (.outcome .silent)) :=
  receiveByte_of (decodeByte_start h s.cfg s.rom b)

/-- Settles O12: each start row receives its byte in phase 0. -/
theorem startMarkersSelectTheForm : Obligations.StartMarkersSelectTheForm := by
  intro s hs
  refine ⟨?short, ?long, fun b hshort hlong => ?ignored⟩
  case short =>
    have hstep : exec .startShort s = _ := receiveByte_start hs Config.startShort
    rwa [phaseStart_startShort] at hstep
  case long =>
    have hstep : exec .startLong s = _ := receiveByte_start hs Config.startLong
    rwa [phaseStart_startLong] at hstep
  case ignored =>
    have hstep : exec (.startIgnored b) s = _ := receiveByte_start hs b
    rwa [phaseStart_ignored hshort hlong] at hstep

end Sys2Proof.Machine
end

section
/-! A byte received in each phase (R71 to R77): what the step writes, phase by phase, and what it reports. Phase 0 stands
above (`decodeByte_start`). -/

namespace Sys2Proof.Machine

variable {d : DecState} (cfg : Config) (rom : Vector U16 256) (b : Byte)

theorem decodeByte_lenHi (h : d.phase = .lenHi) : decodeByte cfg rom b d = .ok (phaseLenHi b d, .silent) := by
  simp only [decodeByte, h]

theorem decodeByte_lenLo (h : d.phase = .lenLo) : decodeByte cfg rom b d = .ok (phaseLenLo b d, .silent) := by
  simp only [decodeByte, h]

theorem decodeByte_payload (h : d.phase = .payload) (hroom : fits cfg.payloadCap (d.payload.length + 1) = true) :
    decodeByte cfg rom b d = .ok (phasePayload b d, .silent) := by
  simp only [decodeByte, h, hroom, if_true]

theorem decodeByte_crcHi (h : d.phase = .crcHi) : decodeByte cfg rom b d = .ok (phaseCrcHi b d, .silent) := by
  simp only [decodeByte, h]

theorem decodeByte_crcLo (h : d.phase = .crcLo) : decodeByte cfg rom b d = .ok (phaseCrcLo b d, .silent) := by
  simp only [decodeByte, h]

theorem decodeByte_terminate (h : d.phase = .terminate) : decodeByte cfg rom b d = .ok (.fresh, verify rom b d) := by
  simp only [decodeByte, h]

/-- Phase 0 writes the phase alone: by the two markers, and an ignored byte writes back the phase it found. -/
theorem phaseStart_writes_phase (h : d.phase = .start) :
    phaseStart b d = { d with
      phase := if b = Config.startShort then .lenLo else if b = Config.startLong then .lenHi else .start } := by
  by_cases hshort : b = Config.startShort
  · subst hshort
    exact phaseStart_startShort d
  · by_cases hlong : b = Config.startLong
    · subst hlong
      exact phaseStart_startLong d
    · rw [phaseStart_ignored hshort hlong, if_neg hshort, if_neg hlong, ← h]

/-- A buffer of `n` bytes below every finite capacity has room for one byte more. -/
theorem fits_succ {cap : Option Nat} {n : Nat} (h : ∀ c, cap = some c → n < c) : fits cap (n + 1) = true := by
  cases cap with
  | none => rfl
  | some c => exact (fits_some c (n + 1)).mpr (h c rfl)

/-- Settles O4: the step of phase 0, with what it writes to the phase. -/
theorem startPhaseReadsMarker : Obligations.StartPhaseReadsMarker := by
  intro s b hs
  have hstep : exec (.decByte b) s = _ := receiveByte_start hs b
  rw [phaseStart_writes_phase b hs] at hstep
  exact hstep

/-- Settles O5: the step of phase 1. -/
theorem lenHiPhaseAssignsHighByte : Obligations.LenHiPhaseAssignsHighByte :=
  fun s b hs => receiveByte_of (decodeByte_lenHi s.cfg s.rom b hs)

/-- Settles O6: the step of phase 2. -/
theorem lenLoPhaseOrsLowByte : Obligations.LenLoPhaseOrsLowByte :=
  fun s b hs => receiveByte_of (decodeByte_lenLo s.cfg s.rom b hs)

/-- Settles O7: below the capacity there is room for the byte. -/
theorem payloadPhaseAppendsThenTests : Obligations.PayloadPhaseAppendsThenTests :=
  fun s b hs hcap => receiveByte_of (decodeByte_payload s.cfg s.rom b hs (fits_succ hcap))

/-- Settles O8: the step of phase 4. -/
theorem crcHiPhaseAssignsHighByte : Obligations.CrcHiPhaseAssignsHighByte :=
  fun s b hs => receiveByte_of (decodeByte_crcHi s.cfg s.rom b hs)

/-- Settles O9: the step of phase 5. -/
theorem crcLoPhaseOrsLowByte : Obligations.CrcLoPhaseOrsLowByte :=
  fun s b hs => receiveByte_of (decodeByte_crcLo s.cfg s.rom b hs)

/-- Settles O10: the step of phase 6. -/
theorem terminatePhaseVerifies : Obligations.TerminatePhaseVerifies :=
  fun s b hs => receiveByte_of (decodeByte_terminate s.cfg s.rom b hs)

end Sys2Proof.Machine
end

section
/-! Signals and frame ends (R78, R79): a signal comes in phase 6 and in no other, and there the step leaves `FRESH`, so that
nothing of a completed frame reaches the next feed. -/

namespace Sys2Proof.Machine

variable {cfg : Config} {rom : Vector U16 256} {b : Byte} {d d' : DecState} {o : DecOutcome}

theorem decodeByte_silent (h : decodeByte cfg rom b d = .ok (d', o)) (hphase : d.phase ≠ .terminate) : o = .silent := by
  rcases decodeByte_cases h with
    ⟨-, -, ho⟩ | ⟨-, -, ho⟩ | ⟨-, -, ho⟩ | ⟨-, -, -, ho⟩ | ⟨-, -, ho⟩ | ⟨-, -, ho⟩ | ⟨hterm, -, -⟩
  case inr.inr.inr.inr.inr.inr => exact absurd hterm hphase
  all_goals exact ho

theorem decodeByte_fresh_of_signal (h : decodeByte cfg rom b d = .ok (d', o)) (ho : o ≠ .silent) : d' = .fresh := by
  have hterm : d.phase = .terminate := Decidable.not_not.mp fun hphase => ho (decodeByte_silent h hphase)
  rw [decodeByte_terminate cfg rom b hterm] at h
  cases h
  rfl

theorem verify_signals (rom : Vector U16 256) (b : Byte) (d : DecState) :
    verify rom b d = .failure ∨ ∃ p, verify rom b d = .success p := by
  unfold verify
  split
  · exact .inr ⟨_, rfl⟩
  · exact .inl rfl

/-- Settles O16: outside phase 6 a byte is silent, and in phase 6 the verdict is a signal. -/
theorem silenceExceptAtTerminatingByte : Obligations.SilenceExceptAtTerminatingByte := by
  intro s t b h
  obtain ⟨d, o, hd, rfl⟩ := receiveByte_next h
  refine ⟨fun hphase => ?silent, fun hphase => ?signal⟩
  case silent => exact congrArg Result.outcome (decodeByte_silent hd hphase)
  case signal =>
    rw [decodeByte_terminate s.cfg s.rom b hphase] at hd
    cases hd
    exact (verify_signals s.rom b s.ds).imp (congrArg Result.outcome) fun ⟨p, hp⟩ => ⟨p, congrArg Result.outcome hp⟩

theorem receiveByte_fresh_of_signal {s t : State} (h : receiveByte b s = .next t) (hsig : t.result ≠ .outcome .silent) :
    t.ds = .fresh := by
  obtain ⟨d, o, hd, rfl⟩ := receiveByte_next h
  exact decodeByte_fresh_of_signal hd fun ho => hsig (congrArg Result.outcome ho)

/-- A feed depends on `DS`, `ROM` and the capacities alone. -/
theorem execDecFeed_congr {s t u : State} {l : Bytes} (hds : t.ds = s.ds) (hconst : SameConstants s t)
    (h : execDecFeed l s = .next u) : ∃ v, execDecFeed l t = .next v ∧ v.result = u.result ∧ v.ds = u.ds := by
  obtain ⟨hrom, hcfg⟩ := hconst
  obtain ⟨d, os, hd, rfl⟩ := execDecFeed_next h
  rw [← hcfg, ← hrom, ← hds] at hd
  exact ⟨_, execDecFeed_of hd, rfl, rfl⟩

/-- Settles O17: both states after the frame have `FRESH` and the same constants, which is all that a feed depends on. -/
theorem everyFrameEndsFresh : Obligations.EveryFrameEndsFresh := by
  refine ⟨fun s t b h hsig => receiveByte_fresh_of_signal h hsig, ?_⟩
  intro s₁ s₂ t₁ t₂ u₁ b₁ b₂ l hrom hcfg h₁ hsig₁ h₂ hsig₂ hfeed
  have hds : t₂.ds = t₁.ds :=
    (receiveByte_fresh_of_signal h₂ hsig₂).trans (receiveByte_fresh_of_signal h₁ hsig₁).symm
  obtain ⟨hrom₁, hcfg₁⟩ := (exec_writesAtMost h₁).sameConstants
  obtain ⟨hrom₂, hcfg₂⟩ := (exec_writesAtMost h₂).sameConstants
  have hconst : SameConstants t₁ t₂ := ⟨by rw [hrom₂, hrom₁, hrom], by rw [hcfg₂, hcfg₁, hcfg]⟩
  exact execDecFeed_congr hds hconst hfeed

end Sys2Proof.Machine
end

section
/-! A feed in two parts (R82): `decodeBytes_append` read in both directions. -/

namespace Sys2Proof.Machine

variable {cfg : Config} {rom : Vector U16 256} {l m : Bytes} {d d₁ d₂ : DecState} {os os₁ os₂ : List DecOutcome}

theorem decodeBytes_append_ok (hl : decodeBytes cfg rom l d = .ok (d₁, os₁))
    (hm : decodeBytes cfg rom m d₁ = .ok (d₂, os₂)) : decodeBytes cfg rom (l ++ m) d = .ok (d₂, os₁ ++ os₂) := by
  simp only [decodeBytes_append, hl, hm]

theorem decodeBytes_append_inv (h : decodeBytes cfg rom (l ++ m) d = .ok (d₂, os)) :
    ∃ d₁ os₁ os₂, decodeBytes cfg rom l d = .ok (d₁, os₁) ∧ decodeBytes cfg rom m d₁ = .ok (d₂, os₂)
      ∧ os = os₁ ++ os₂ := by
  rw [decodeBytes_append] at h
  split at h
  · cases h
  · next d₁ os₁ hl =>
    split at h
    · cases h
    · next d₂ os₂ hm =>
      cases h
      exact ⟨d₁, os₁, os₂, hl, hm, rfl⟩

/-- Settles O19: the chunks join, and a joined chunk that completes comes apart. -/
theorem feedSplitsAnywhere : Obligations.FeedSplitsAnywhere := by
  refine ⟨?join, ?cut⟩
  case join =>
    intro s s₁ s₂ l m os₁ os₂ hl hos₁ hm hos₂
    obtain ⟨d₁, os₁, hd₁, rfl⟩ := execDecFeed_next hl
    obtain ⟨d₂, os₂, hd₂, rfl⟩ := execDecFeed_next hm
    cases hos₁
    cases hos₂
    exact execDecFeed_of (decodeBytes_append_ok hd₁ hd₂)
  case cut =>
    intro s t l m h
    obtain ⟨d₂, os, hd, rfl⟩ := execDecFeed_next h
    obtain ⟨d₁, os₁, os₂, hd₁, hd₂, rfl⟩ := decodeBytes_append_inv hd
    exact ⟨_, _, os₁, os₂, execDecFeed_of hd₁, rfl, execDecFeed_of hd₂, rfl, rfl⟩

end Sys2Proof.Machine
end

section
/-! The checksum of a sequence (R90, R91): the update over a joined sequence goes on from the accumulator of its first part,
and one update reads the entry of `ROM` that R91's masked index names. -/

namespace Sys2Proof.Machine

variable {rom : Vector U16 256}

theorem crcFrom_append (rom : Vector U16 256) (acc : U16) (l m : Bytes) :
    crcFrom rom acc (l ++ m) = crcFrom rom (crcFrom rom acc l) m := by
  induction l generalizing acc with
  | nil => rfl
  | cons b t ih => exact ih (crcStep rom acc b)

theorem crc16_append_byte (rom : Vector U16 256) (l : Bytes) (b : Byte) :
    crc16 rom (l ++ [b]) = crcStep rom (crc16 rom l) b :=
  crcFrom_append rom Config.crcInit l [b]

/-- The low byte of a word and the word masked with 0xFF are one index. -/
theorem loByte_toNat (v : U16) : (loByte v).toNat = (v &&& 0xFF).toNat := by
  have hmask : (v &&& 0xFF).toNat = v.toNat % 2 ^ 8 := Nat.and_two_pow_sub_one_eq_mod v.toNat 8
  rw [hmask]
  simp [loByte]

theorem romRead_of {i : Byte} {e : U16} (h : rom[i.toNat]? = some e) : romRead rom i = e :=
  (Vector.getElem?_eq_some_iff.mp h).2

/-- R91 as the source writes it; the mask after the shift is the accumulator's width (R92). -/
theorem crcStep_of {c e : U16} {b : Byte}
    (h : rom[(((c >>> 8) ^^^ b.setWidth 16) &&& 0xFF).toNat]? = some e) :
    crcStep rom c b = e ^^^ ((c <<< 8) &&& 0xFFFF) := by
  rw [← loByte_toNat] at h
  have hread : romRead rom (loByte ((c >>> 8) ^^^ zext16 b)) = e := romRead_of h
  have hmask : (c <<< 8) &&& (0xFFFF : U16) = c <<< 8 := BitVec.and_allOnes
  rw [crcStep, hread, hmask]

/-- CRC16 completes on every sequence and writes its result alone (R90). -/
theorem execCrc16_eq (l : Bytes) (s : State) : execCrc16 l s = .next { s with result := .crc (crc16 s.rom l) } := rfl

theorem execCrc16_returns_iff {l : Bytes} {s : State} {c : U16} :
    execCrc16 l s = .next { s with result := .crc c } ↔ crc16 s.rom l = c := by
  simp [execCrc16_eq]

/-- Settles O25: a byte appended is one update more, from the checksum of the sequence before it. -/
theorem crc16ReturnsChecksum : Obligations.Crc16ReturnsChecksum := by
  refine ⟨execCrc16_eq [], fun s l => ⟨_, execCrc16_eq l s⟩, fun s l b c e hcrc hentry => ?_⟩
  have hc : crc16 s.rom l = c := execCrc16_returns_iff.mp hcrc
  have hsum : crc16 s.rom (l ++ [b]) = e ^^^ ((c <<< 8) &&& 0xFFFF) := by
    rw [crc16_append_byte, hc, crcStep_of hentry]
  exact execCrc16_returns_iff.mpr hsum

end Sys2Proof.Machine
end

section
/-! Packets and fields (R100 to R111): what `APPEND.w`, `READ.w` and `REMAINING` do to a packet that exists, for every width
at once, and the bytes of the three widths. -/

namespace Sys2Proof.Machine

/-! Creating a packet. -/

/-- A message no longer than every finite capacity fits. -/
theorem fits_of_le {cap : Option Nat} {n : Nat} (h : ∀ c, cap = some c → n ≤ c) : fits cap n = true := by
  cases cap with
  | none => rfl
  | some c => exact (fits_some c n).mpr (h c rfl)

theorem createPacket_of {pk : PktName} {p : Packet} {s : State} (h : fits s.cfg.msgCap p.message.length = true) :
    createPacket pk p s = .next { s with pkts := s.pkts.set pk p, result := .packet p } :=
  if_pos h

theorem exec_pktEmpty (pk : PktName) (s : State) :
    exec (.pktEmpty pk) s = .next { s with pkts := s.pkts.set pk ⟨[], 0⟩, result := .packet ⟨[], 0⟩ } :=
  createPacket_of (fits_of_le fun c _ => Nat.zero_le c)

section OnPacket

variable {s : State} {pk : PktName} {p : Packet} {v scale : Rat}

theorem exec_remaining_of (hp : s.pkts.get pk = some p) :
    exec (.remaining pk) s = .next { s with result := .count p.remaining } :=
  withPacket_some _ hp

/-! The operations of a width. -/

theorem fieldWidth_legal (w : FieldWidth) : Config.fieldWidths.contains w.bits = true := by
  cases w <;> rfl

theorem exec_appendInstr (w : FieldWidth) (pk : PktName) (v scale : Rat) (s : State) :
    exec (appendInstr w pk v scale) s = appendTo w.bits pk v scale s := by
  cases w <;> rfl

theorem exec_readInstr (w : FieldWidth) (pk : PktName) (scale : Rat) (adv : Bool) (s : State) :
    exec (readInstr w pk scale adv) s = readFrom w.bits pk scale adv s := by
  cases w <;> rfl

/-! `APPEND` (R103, R114). -/

/-- A stored integer `x` in range goes to the end of the message as `be_bytes(w/8, x)`. -/
theorem exec_appendInstr_of (w : FieldWidth) (hp : s.pkts.get pk = some p) (hs : 0 < scale) {x : Nat}
    (hx : trunc (v * scale) = (x : Int)) (hmax : x < 2 ^ w.bits)
    (hcap : ∀ c, s.cfg.msgCap = some c → p.message.length + w.bits / 8 ≤ c) :
    exec (appendInstr w pk v scale) s = .next { s with
      pkts := s.pkts.set pk { p with message := p.message ++ beBytes (w.bits / 8) x }
      result := .nothing } := by
  have hmin : 0 ≤ trunc (v * scale) := by omega
  have hle : trunc (v * scale) ≤ 2 ^ w.bits - 1 := by
    have hlt : (x : Int) < 2 ^ w.bits := by exact_mod_cast hmax
    omega
  have hnat : (trunc (v * scale)).toNat = x := by omega
  rw [exec_appendInstr, appendTo_of hp (fieldWidth_legal w) hs hmin hle (fits_of_le hcap), hnat]
  rfl

theorem encodeField_fieldRange {w : Nat} (hc : checkField w scale = .ok ())
    (hx : trunc (v * scale) < 0 ∨ 2 ^ w - 1 < trunc (v * scale)) : encodeField w v scale = .error .fieldRange := by
  have hout : ¬ (0 ≤ trunc (v * scale) ∧ trunc (v * scale) ≤ 2 ^ w - 1) := by omega
  simp only [encodeField, hc, storedInt_eq_trunc, hout, if_false]

theorem exec_appendInstr_fieldRange (w : FieldWidth) (hp : s.pkts.get pk = some p) (hs : 0 < scale)
    (hx : trunc (v * scale) < 0 ∨ 2 ^ w.bits - 1 < trunc (v * scale)) :
    exec (appendInstr w pk v scale) s = .refused .fieldRange := by
  have hfield := encodeField_fieldRange (checkField_of (fieldWidth_legal w) hs) hx
  simp only [exec_appendInstr, appendTo, withPacket_some _ hp, appendField, hfield]

/-! `READ` (R107, R116). -/

theorem exec_readInstr_truncated (w : FieldWidth) (adv : Bool) (hp : s.pkts.get pk = some p) (hs : 0 < scale)
    (hshort : p.remaining < w.bits / 8) :
    exec (readInstr w pk scale adv) s = .next { s with result := .error (.truncatedRead w.bits p.remaining) } := by
  rw [exec_readInstr, readFrom_of adv hp (fieldWidth_legal w) hs, if_pos hshort]
  rfl

theorem exec_readInstr_value (w : FieldWidth) (adv : Bool) (hp : s.pkts.get pk = some p) (hs : 0 < scale)
    (hrem : w.bits / 8 ≤ p.remaining) :
    exec (readInstr w pk scale adv) s = .next { s with
      pkts := if adv then s.pkts.set pk { p with index := p.index + w.bits / 8 } else s.pkts
      result := .value ((beVal (memRead p.message p.index (w.bits / 8)) : Rat) / scale) } := by
  rw [exec_readInstr, readFrom_of adv hp (fieldWidth_legal w) hs, if_neg (not_lt.mpr hrem)]
  cases adv <;> rfl

/-- The bytes at the cursor, as many as the width asks for, are what is read. -/
theorem exec_readInstr_bytes (w : FieldWidth) (adv : Bool) (hp : s.pkts.get pk = some p) (hs : 0 < scale) {bs : Bytes}
    (hread : memRead p.message p.index (w.bits / 8) = bs) (hlen : bs.length = w.bits / 8) :
    exec (readInstr w pk scale adv) s = .next { s with
      pkts := if adv then s.pkts.set pk { p with index := p.index + w.bits / 8 } else s.pkts
      result := .value ((beVal bs : Rat) / scale) } := by
  have hrem : w.bits / 8 ≤ p.remaining := by
    rw [← hread, memRead, List.length_take, List.length_drop] at hlen
    unfold Packet.remaining
    omega
  rw [exec_readInstr_value w adv hp hs hrem, hread]

theorem exec_readInstr_returns_value_iff (w : FieldWidth) (adv : Bool) (hp : s.pkts.get pk = some p) (hs : 0 < scale) :
    (∃ t q, exec (readInstr w pk scale adv) s = .next t ∧ t.result = .value q) ↔ w.bits / 8 ≤ p.remaining := by
  refine ⟨fun ⟨t, q, hexec, hvalue⟩ => not_lt.mp fun hshort => ?_, fun hrem => ?_⟩
  · rw [exec_readInstr_truncated w adv hp hs hshort] at hexec
    cases hexec
    cases hvalue
  · exact ⟨_, _, exec_readInstr_value w adv hp hs hrem, rfl⟩

end OnPacket

/-! The bytes of a field. -/

theorem memRead_zero (m : Bytes) (i : Nat) : memRead m i 0 = [] := rfl

theorem memRead_cons {m t : Bytes} {i n : Nat} {b : Byte} (hb : m[i]? = some b) (ht : memRead m (i + 1) n = t) :
    memRead m i (n + 1) = b :: t := by
  obtain ⟨hi, rfl⟩ := List.getElem?_eq_some_iff.mp hb
  rw [memRead, List.drop_eq_getElem_cons hi, List.take_succ_cons]
  exact congrArg _ ht

/-- A byte is its own low eight bits, so R105's and R106's masks change nothing. -/
theorem ofNat_and_mask (x : Nat) : BitVec.ofNat 8 (x &&& 0xFF) = BitVec.ofNat 8 x := by
  apply BitVec.eq_of_toNat_eq
  rw [BitVec.toNat_ofNat, BitVec.toNat_ofNat, Nat.and_two_pow_sub_one_eq_mod x 8, Nat.mod_mod]

/-! The obligations. -/

/-- Settles O40: `REMAINING` is the count that a `READ` compares with its width. -/
theorem remainingCountsUnreadBytes : Obligations.RemainingCountsUnreadBytes := by
  intro s pk p hp hcursor
  exact ⟨p.remaining, exec_remaining_of hp, Nat.add_sub_cancel' hcursor,
    fun w _ adv hs => exec_readInstr_returns_value_iff w adv hp hs⟩

/-- Settles O28: the empty message fits every capacity, and the packet is read back under its name. -/
theorem pktEmptyCreates : Obligations.PktEmptyCreates := by
  intro s pk
  refine ⟨exec_pktEmpty pk s, fun t u hcreate hcount => ?_⟩
  rw [exec_pktEmpty] at hcreate
  cases hcreate
  rw [exec_remaining_of (Memory.get_set_same s.pkts pk ⟨[], 0⟩)] at hcount
  cases hcount
  rfl

/-- Settles O33: `be_bytes(1, x)` is `[x]`. -/
theorem append8StoresByte : Obligations.Append8StoresByte := by
  intro s pk p v scale hp hs
  refine ⟨fun x hx hmax hcap => ?stores, fun hout => exec_appendInstr_fieldRange .w8 hp hs hout⟩
  exact exec_appendInstr_of .w8 hp hs hx (Nat.lt_succ_of_le hmax) hcap

/-- Settles O34: `be_bytes(2, x)` is R105's list, whose mask changes nothing. -/
theorem append16StoresTwoBytes : Obligations.Append16StoresTwoBytes := by
  intro s pk p v scale hp hs
  refine ⟨fun x hx hmax hcap => ?stores, fun hout => exec_appendInstr_fieldRange .w16 hp hs hout⟩
  rw [ofNat_and_mask]
  exact exec_appendInstr_of .w16 hp hs hx (Nat.lt_succ_of_le hmax) hcap

/-- Settles O35: `be_bytes(4, x)` is R106's list, whose masks change nothing. -/
theorem append32StoresFourBytes : Obligations.Append32StoresFourBytes := by
  intro s pk p v scale hp hs
  refine ⟨fun x hx hmax hcap => ?stores, fun hout => exec_appendInstr_fieldRange .w32 hp hs hout⟩
  simp only [ofNat_and_mask]
  exact exec_appendInstr_of .w32 hp hs hx (Nat.lt_succ_of_le hmax) hcap

/-- Settles O36: the one byte at the cursor is its own value. -/
theorem read8ReturnsByte : Obligations.Read8ReturnsByte := by
  intro s pk p scale adv hp hs
  refine ⟨fun b hb => ?value, fun hshort => exec_readInstr_truncated .w8 adv hp hs hshort⟩
  have hread : memRead p.message p.index 1 = [b] := memRead_cons hb (memRead_zero _ _)
  have hval : beVal [b] = b.toNat := by simp [beVal]
  rw [← hval]
  exact exec_readInstr_bytes .w8 adv hp hs hread (by simp [FieldWidth.bits])

/-- Settles O37: the two bytes at the cursor, and their big-endian value. -/
theorem read16ReturnsTwoBytes : Obligations.Read16ReturnsTwoBytes := by
  intro s pk p scale adv hp hs
  refine ⟨fun b₀ b₁ h₀ h₁ => ?value, fun hshort => exec_readInstr_truncated .w16 adv hp hs hshort⟩
  have hread : memRead p.message p.index 2 = [b₀, b₁] := memRead_cons h₀ (memRead_cons h₁ (memRead_zero _ _))
  have hval : beVal [b₀, b₁] = b₀.toNat * 256 + b₁.toNat := by simp [beVal]
  rw [← hval]
  exact exec_readInstr_bytes .w16 adv hp hs hread (by simp [FieldWidth.bits])

/-- Settles O38: the four bytes at the cursor, and their big-endian value. -/
theorem read32ReturnsFourBytes : Obligations.Read32ReturnsFourBytes := by
  intro s pk p scale adv hp hs
  refine ⟨fun b₀ b₁ b₂ b₃ h₀ h₁ h₂ h₃ => ?value, fun hshort => exec_readInstr_truncated .w32 adv hp hs hshort⟩
  have hread : memRead p.message p.index 4 = [b₀, b₁, b₂, b₃] :=
    memRead_cons h₀ (memRead_cons h₁ (memRead_cons h₂ (memRead_cons h₃ (memRead_zero _ _))))
  have hval : beVal [b₀, b₁, b₂, b₃]
      = b₀.toNat * 2 ^ 24 + b₁.toNat * 2 ^ 16 + b₂.toNat * 2 ^ 8 + b₃.toNat := by simp [beVal, Nat.add_assoc]
  rw [← hval]
  exact exec_readInstr_bytes .w32 adv hp hs hread (by simp [FieldWidth.bits])

end Sys2Proof.Machine
end

section
/-! Frames sent (R121 to R124): a payload no longer than `LEN_MAX` goes out whole, after the header its length chooses and
before the trailer of its checksum. -/

namespace Sys2Proof.Machine

/-- A header is its form's start marker, then one length byte in the short form and two in the long (R121, R122). -/
theorem frameHeader_form (n : Nat) :
    (frameHeader n).head? = some Config.startShort ∧ (frameHeader n).length = 2
      ∨ (frameHeader n).head? = some Config.startLong ∧ (frameHeader n).length = 3 := by
  by_cases hn : n ≤ Config.shortMax
  · rw [frameHeader, if_pos hn]
    exact .inl ⟨rfl, rfl⟩
  · rw [frameHeader, if_neg hn]
    exact .inr ⟨rfl, rfl⟩

/-- Both forms at once. -/
theorem serializeFrame_of_le (rom : Vector U16 256) {l : Bytes} (h : l.length ≤ Config.lenMax) :
    serializeFrame rom l = .ok (frameHeader l.length ++ l ++ frameTrailer (crc16 rom l)) :=
  if_neg (not_lt.mpr h)

theorem exec_serialize_of_ok {s : State} {l f : Bytes} (h : serializeFrame s.rom l = .ok f) :
    exec (.serialize (.lit l)) s = .next { s with result := .bytes f } := by
  change execSerialize (.lit l) s = _
  simp only [execSerialize, withPayload, h]
  rfl

/-- Settles O43: the trailer is made from the very word that CRC16 of the payload returns. -/
theorem serializeAppendsCrcAndTerminator : Obligations.SerializeAppendsCrcAndTerminator := by
  intro s l hl
  exact ⟨frameHeader l.length, crc16 s.rom l, execCrc16_eq l s, exec_serialize_of_ok (serializeFrame_of_le s.rom hl),
    frameHeader_form l.length⟩

end Sys2Proof.Machine
end

section
/-! What stands written when an operation reports an error (R137): a rejected frame leaves `FRESH`, and the errors of `READ`
and `SERIALIZE` are raised before anything is written. -/

namespace Sys2Proof.Machine

/-- R137's table over the operations: no error is reported, or a frame is rejected with `DS` fresh, or an error is raised on
the state as it was. -/
def WritesByErrorTable (s t : State) : Prop :=
  t.result.errorKind = none ∨ t = (s.putDs .fresh).putResult (.outcome .failure) ∨ ∃ e, t = s.putResult (.error e)

/-- A byte that rejects a frame is a signal, so the decoder is left fresh. -/
theorem receiveByte_writesByErrorTable {b : Byte} {s t : State} (h : receiveByte b s = .next t) :
    WritesByErrorTable s t := by
  obtain ⟨d, o, hd, rfl⟩ := receiveByte_next h
  cases o with
  | silent | success => exact .inl rfl
  | failure =>
    have hfresh : d = .fresh := decodeByte_fresh_of_signal hd (by simp)
    exact .inr (.inl (by rw [hfresh]))

theorem createPacket_writesByErrorTable {pk : PktName} {p : Packet} {s t : State} (h : createPacket pk p s = .next t) :
    WritesByErrorTable s t := by
  obtain ⟨-, rfl⟩ := createPacket_next h
  exact .inl rfl

theorem execPktFromFields_writesByErrorTable {pk : PktName} {fields : List FieldArg} {s t : State}
    (h : execPktFromFields pk fields s = .next t) : WritesByErrorTable s t := by
  unfold execPktFromFields at h
  split at h
  · cases h
  · exact createPacket_writesByErrorTable h

theorem appendTo_writesByErrorTable {w : Nat} {pk : PktName} {v scale : Rat} {s t : State}
    (h : appendTo w pk v scale s = .next t) : WritesByErrorTable s t := by
  obtain ⟨p, bs, -, -, -, rfl⟩ := appendTo_next h
  exact .inl rfl

/-- The bound is tested before the cursor moves (R116, R136). -/
theorem readFrom_writesByErrorTable {w : Nat} {pk : PktName} {scale : Rat} {adv : Bool} {s t : State}
    (h : readFrom w pk scale adv s = .next t) : WritesByErrorTable s t := by
  obtain ⟨p, -, -, ⟨-, rfl⟩ | ⟨-, rfl⟩⟩ := readFrom_next h
  · exact .inr (.inr ⟨_, rfl⟩)
  · exact .inl rfl

theorem execSerialize_writesByErrorTable {src : PayloadArg} {s t : State} (h : execSerialize src s = .next t) :
    WritesByErrorTable s t := by
  obtain ⟨l, hl⟩ := withPayload_next h
  split at hl
  · cases hl
    exact .inl rfl
  · next e _ =>
    cases hl
    exact .inr (.inr ⟨e, rfl⟩)

/-- A feed reports no error of its own (R80), and of the codec only `READ` and `SERIALIZE` raise one. -/
theorem exec_writesByErrorTable {i : Instr} {s t : State} (h : exec i s = .next t) : WritesByErrorTable s t := by
  cases i with
  | startShort | startLong | startIgnored | terminator | decByte => exact receiveByte_writesByErrorTable h
  | decFeed l =>
    obtain ⟨d, os, -, rfl⟩ := execDecFeed_next h
    exact .inl rfl
  | decReset | reset | crc16 =>
    cases h
    exact .inl rfl
  | pktEmpty | pktFromBytes => exact createPacket_writesByErrorTable h
  | pktFromFields => exact execPktFromFields_writesByErrorTable h
  | append8 | append16 | append32 => exact appendTo_writesByErrorTable h
  | read8 | read16 | read32 => exact readFrom_writesByErrorTable h
  | remaining =>
    obtain ⟨p, -, hp⟩ := withPacket_next h
    cases hp
    exact .inl rfl
  | serialize => exact execSerialize_writesByErrorTable h
  | reserved => cases h

theorem errorKind_error_ne_frameRejected (e : OpError) : (Result.error e).errorKind ≠ some .frameRejected := by
  cases e <;> exact fun h => nomatch h

/-- Settles O55: the kind of the error picks the row of the table. -/
theorem errorsWriteOnlyWhatTheTableSays : Obligations.ErrorsWriteOnlyWhatTheTableSays := by
  intro i s t h
  rcases exec_writesByErrorTable h with hnone | rfl | ⟨e, rfl⟩
  · simp [hnone]
  · refine ⟨fun _ => rfl, fun hkind => ?_⟩
    rcases hkind with hkind | hkind <;> cases hkind
  · exact ⟨fun hkind => absurd hkind (errorKind_error_ne_frameRejected e), fun _ => rfl⟩

end Sys2Proof.Machine
end

section
/-! Requests and what they decode to (R53 to R65): the rows a received byte is read as, the word of an operation, and what
an instruction decoded from a command word is. -/

namespace Sys2Proof.Machine

/-! Received bytes (R53, R56). -/

theorem decodeWire_startIgnored {b : Byte} (hshort : b ≠ Config.startShort) (hlong : b ≠ Config.startLong) :
    decodeWire .start b = .startIgnored b := by
  simp only [decodeWire, if_neg hshort, if_neg hlong]

/-- Outside the two phases that read a role from the byte, and in phase 6 for any other byte, a byte is data. -/
theorem decodeWire_decByte {ph : Phase} {b : Byte} (hstart : ph ≠ .start)
    (hterm : ph = .terminate → b ≠ Config.terminator) : decodeWire ph b = .decByte b := by
  cases ph with
  | start => exact absurd rfl hstart
  | terminate => exact if_neg (hterm rfl)
  | lenHi | lenLo | payload | crcHi | crcLo => rfl

/-- The rows a received byte is read as: the row of the byte's own value, or data. -/
theorem decodeWire_cases (ph : Phase) (b : Byte) :
    decodeWire ph b = .decByte b ∨ decodeWire ph b = .startIgnored b
      ∨ b = Config.startShort ∧ decodeWire ph b = .startShort ∨ b = Config.startLong ∧ decodeWire ph b = .startLong
      ∨ b = Config.terminator ∧ decodeWire ph b = .terminator := by
  unfold decodeWire
  split
  · split
    · next hb => exact .inr (.inr (.inl ⟨hb, rfl⟩))
    · split
      · next hb => exact .inr (.inr (.inr (.inl ⟨hb, rfl⟩)))
      · exact .inr (.inl rfl)
  · split
    · next hb => exact .inr (.inr (.inr (.inr ⟨hb, rfl⟩)))
    · exact .inl rfl
  all_goals exact .inl rfl

theorem onDecoder_decodeWire (ph : Phase) (b : Byte) : onDecoder (decodeWire ph b) = true := by
  rcases decodeWire_cases ph b with h | h | ⟨-, h⟩ | ⟨-, h⟩ | ⟨-, h⟩
  all_goals
    rw [h]
    rfl

theorem exec_decodeWire (ph : Phase) (b : Byte) (s : State) : exec (decodeWire ph b) s = receiveByte b s := by
  rcases decodeWire_cases ph b with h | h | ⟨rfl, h⟩ | ⟨rfl, h⟩ | ⟨rfl, h⟩
  all_goals
    rw [h]
    rfl

theorem decodeWire_ne_decFeed (ph : Phase) (b : Byte) (l : Bytes) : decodeWire ph b ≠ .decFeed l := by
  rcases decodeWire_cases ph b with h | h | ⟨-, h⟩ | ⟨-, h⟩ | ⟨-, h⟩
  all_goals
    rw [h]
    nofun

/-! Command words (R62, R63). -/

/-- The command word of an operation, as R63's table gives it. -/
def opWord (op : Op) : Byte :=
  match op with
  | .decReset => 0x10
  | .decByte => 0x20
  | .crc16 => 0x30
  | .pktEmpty => 0x40
  | .pktFromBytes => 0x50
  | .append .w8 => 0x60
  | .append .w16 => 0x64
  | .append .w32 => 0x68
  | .read .w8 adv => if adv then 0x72 else 0x70
  | .read .w16 adv => if adv then 0x76 else 0x74
  | .read .w32 adv => if adv then 0x7A else 0x78
  | .remaining => 0x80
  | .serialize => 0x90
  | .reset => 0xF0

theorem forall_opWord_of_decodeOp : ∀ cmd : Byte, ∀ op ∈ decodeOp cmd, opWord op = cmd := by decide +kernel

/-- Each operation is read from its own word only. -/
theorem opWord_of_decodeOp {cmd : Byte} {op : Op} (h : decodeOp cmd = some op) : opWord op = cmd :=
  forall_opWord_of_decodeOp cmd op h

theorem decodeOp_eq_none_of_not_assigned : ∀ cmd : Byte, (!assignedCommand cmd) = true → decodeOp cmd = none := by
  decide +kernel

/-- R63's list of reserved words, field by field. -/
theorem decodeOp_eq_none_iff : ∀ cmd : Byte,
    decodeOp cmd = none ↔
      ((cmd.extractLsb' 4 4).toNat ∈ [0x0, 0xA, 0xB, 0xC, 0xD, 0xE]
        ∨ (cmd.extractLsb' 2 2).toNat = 3 ∧ (cmd.extractLsb' 4 4).toNat ∈ [6, 7]
        ∨ (cmd.extractLsb' 2 2).toNat ≠ 0 ∧ (cmd.extractLsb' 4 4).toNat ∉ [6, 7]
        ∨ cmd.getLsbD 1 = true ∧ (cmd.extractLsb' 4 4).toNat ≠ 7 ∨ cmd.getLsbD 0 = true) := by decide +kernel

/-- What an operation joined with its operands is: an instruction encoded as the operation's word beside these operands,
on `DS` exactly when its word is, and no reserved word. -/
theorem bindOperands_some {op : Op} {ops : Operands} {i : Instr} (h : bindOperands op ops = some i) :
    encode i = .command (opWord op) ops ∧ onDecoder i = (Request.command (opWord op) ops).onDecoder
      ∧ ∀ c, i ≠ .reserved c := by
  unfold bindOperands at h
  split at h
  case h_6 w pk v scale =>
    cases h
    cases w <;> exact ⟨rfl, rfl, nofun⟩
  case h_7 w adv pk scale =>
    cases h
    cases w <;> cases adv <;> exact ⟨rfl, rfl, nofun⟩
  case h_11 => cases h
  all_goals
    cases h
    exact ⟨rfl, rfl, nofun⟩

theorem decode_command_reserved {cmd : Byte} (h : decodeOp cmd = none) (ph : Phase) (ops : Operands) :
    decode ph (.command cmd ops) = .ok (.reserved cmd) := by simp only [decode, h]

/-- A command word decodes to `RESERVED`, or to an operation joined with the operands beside its word. -/
theorem decode_command_ok {ph : Phase} {cmd : Byte} {ops : Operands} {i : Instr}
    (h : decode ph (.command cmd ops) = .ok i) :
    decodeOp cmd = none ∧ i = .reserved cmd
      ∨ ∃ op, decodeOp cmd = some op ∧ opWord op = cmd ∧ bindOperands op ops = some i := by
  simp only [decode] at h
  split at h
  · next hnone => exact .inl ⟨hnone, (Except.ok.inj h).symm⟩
  · next op hop =>
    split at h
    · next i' hi => exact .inr ⟨op, hop, opWord_of_decodeOp hop, hi.trans (congrArg some (Except.ok.inj h))⟩
    · cases h

theorem decode_command_reserved_iff (ph : Phase) (cmd : Byte) (ops : Operands) :
    decode ph (.command cmd ops) = .ok (.reserved cmd) ↔ decodeOp cmd = none := by
  refine ⟨fun h => ?_, fun h => decode_command_reserved h ph ops⟩
  rcases decode_command_ok h with ⟨hnone, -⟩ | ⟨op, -, -, hi⟩
  · exact hnone
  · exact absurd rfl ((bindOperands_some hi).2.2 cmd)

/-- The words on `DS` are assigned, so a reserved word is not on `DS`. -/
theorem not_onDecoder_of_reserved {cmd : Byte} (h : decodeOp cmd = none) (ops : Operands) :
    (Request.command cmd ops).onDecoder = false := by
  have hne : ∀ w : Byte, (decodeOp w).isSome = true → cmd ≠ w := by
    rintro w hw rfl
    simp [h] at hw
  have hall : (cmd ≠ 0x10 ∧ cmd ≠ 0x20) ∧ cmd ≠ 0xF0 := ⟨⟨hne 0x10 rfl, hne 0x20 rfl⟩, hne 0xF0 rfl⟩
  simpa [Request.onDecoder] using hall

theorem onDecoder_of_decode {ph : Phase} {r : Request} {i : Instr} (h : decode ph r = .ok i) :
    onDecoder i = r.onDecoder := by
  cases r with
  | wire b =>
    cases h
    exact onDecoder_decodeWire ph b
  | feed | fromFields =>
    cases h
    rfl
  | command cmd ops =>
    rcases decode_command_ok h with ⟨hnone, rfl⟩ | ⟨op, -, rfl, hi⟩
    · exact (not_onDecoder_of_reserved hnone ops).symm
    · exact (bindOperands_some hi).2.1

/-! The obligations. -/

/-- Settles O47: a wire row is read in its phase, a reserved word as itself, and every other request by evaluation. -/
theorem decodeOfEncode : Obligations.DecodeOfEncode := by
  intro ph i hwf hread
  cases i with
  | startShort | startLong | terminator =>
    cases eq_of_beq hread
    rfl
  | startIgnored b =>
    cases eq_of_beq hread
    obtain ⟨hshort, hlong⟩ : b ≠ Config.startShort ∧ b ≠ Config.startLong := by simpa [Instr.wf] using hwf
    exact congrArg Except.ok (decodeWire_startIgnored hshort hlong)
  | reserved cmd => exact decode_command_reserved (decodeOp_eq_none_of_not_assigned cmd hwf) ph .unit
  | read8 pk scale adv | read16 pk scale adv | read32 pk scale adv => cases adv <;> rfl
  | _ => rfl

/-- Settles O48: of a word that is not reserved, the operation's own word and the operands stand in the encoding. -/
theorem encodeOfDecode : Obligations.EncodeOfDecode := by
  intro ph r i h hwire hreserved
  cases r with
  | wire b => exact absurd rfl (hwire b)
  | feed | fromFields =>
    cases h
    rfl
  | command cmd ops =>
    rcases decode_command_ok h with ⟨-, rfl⟩ | ⟨op, -, rfl, hi⟩
    · exact absurd rfl (hreserved cmd)
    · exact (bindOperands_some hi).1

/-- Settles O45: the reserved words are those that select no operation. -/
theorem reservedCommandWordsAreRefused : Obligations.ReservedCommandWordsAreRefused :=
  ⟨fun ph cmd ops => (decode_command_reserved_iff ph cmd ops).trans (decodeOp_eq_none_iff cmd), fun _ _ => rfl⟩

/-- Settles O14: the role by phase and byte. -/
theorem phaseGivesWireByteItsRole : Obligations.PhaseGivesWireByteItsRole :=
  ⟨rfl, rfl, fun _ hshort hlong => congrArg Except.ok (decodeWire_startIgnored hshort hlong), rfl,
    fun _ hne => congrArg Except.ok (decodeWire_decByte nofun fun _ => hne),
    fun _ _ hstart hterm => congrArg Except.ok (decodeWire_decByte hstart fun h => absurd h hterm)⟩

/-- Settles O13: a wire row receives its byte. -/
theorem wireRowsAreByteSteps : Obligations.WireRowsAreByteSteps := by
  refine ⟨fun s hs => ?_, fun s b => ⟨rfl, rfl, rfl, rfl⟩⟩
  have hstep : exec .terminator s = _ := receiveByte_of (decodeByte_terminate s.cfg s.rom Config.terminator hs)
  simp only [verify, true_and] at hstep
  exact hstep

/-- Settles O46: each word evaluates. -/
theorem commandWordsDecode : Obligations.CommandWordsDecode :=
  fun _ => ⟨rfl, rfl, rfl, rfl, rfl, rfl, rfl⟩

/-- Settles O2: the word evaluates, and so does the operation. -/
theorem resetClearsBlock : Obligations.ResetClearsBlock := ⟨fun _ => rfl, fun _ => rfl⟩

/-- Settles O3: the word evaluates, and so does the operation. -/
theorem decResetWritesFresh : Obligations.DecResetWritesFresh := ⟨fun _ => rfl, fun _ => rfl⟩

end Sys2Proof.Machine
end

section
/-! The invariant (R84, R17, R38): each operation keeps what of it an operation can write, and a step uses up moves and
bytes besides. -/

namespace Sys2Proof.Machine

variable {cfg : Config} {rom : Vector U16 256} {b : Byte} {d d' : DecState} {o : DecOutcome}

/-! The decoder's invariant. -/

/-- The payload is whole, and not empty (R84 (d)). -/
def DecState.Whole (d : DecState) : Prop := d.payload.length = d.length.toNat ∧ 1 ≤ d.length.toNat

/-- R84 with its clauses sorted by phase: what holds in the phase the decoder is in. -/
def DecState.PhaseInv (d : DecState) : Prop :=
  match d.phase with
  | .start => d = .fresh
  | .lenHi => (d.payload = [] ∧ d.crc = 0) ∧ d.length = 0
  | .lenLo => (d.payload = [] ∧ d.crc = 0) ∧ loByte d.length = 0
  | .payload => 1 ≤ d.length.toNat → d.payload.length < d.length.toNat
  | .crcHi => d.Whole
  | .crcLo => d.Whole ∧ loByte d.crc = 0
  | .terminate => d.Whole

theorem DecState.inv_iff (cfg : Config) (d : DecState) :
    d.Inv cfg ↔ d.PhaseInv ∧ fits cfg.payloadCap d.payload.length = true := by
  constructor
  · rintro ⟨ha, hb, hc, hd, he, he', hf, hcap⟩
    refine ⟨?_, hcap⟩
    unfold DecState.PhaseInv
    split
    · next hp => exact ha hp
    · next hp => exact ⟨hb (.inl hp), he hp⟩
    · next hp => exact ⟨hb (.inr hp), he' hp⟩
    · next hp => exact hc hp
    · next hp => exact hd (.inl hp)
    · next hp => exact ⟨hd (.inr (.inl hp)), hf hp⟩
    · next hp => exact hd (.inr (.inr hp))
  · rintro ⟨h, hcap⟩
    unfold DecState.PhaseInv at h
    refine ⟨fun hp => ?start, fun hp => ?header, fun hp => ?short, fun hp => ?whole, fun hp => ?lenHi, fun hp => ?lenLo,
      fun hp => ?crcLo, hcap⟩
    case start | short =>
      rw [hp] at h
      exact h
    case header =>
      rcases hp with hp | hp
      all_goals
        rw [hp] at h
        exact h.1
    case whole =>
      rcases hp with hp | hp | hp
      all_goals rw [hp] at h
      · exact h
      · exact h.1
      · exact h
    case lenHi | lenLo | crcLo =>
      rw [hp] at h
      exact h.2

theorem DecState.fresh_inv (cfg : Config) : DecState.fresh.Inv cfg :=
  (DecState.inv_iff cfg .fresh).mpr ⟨rfl, fits_of_le fun c _ => Nat.zero_le c⟩

theorem loByte_shiftLeft (v : U16) : loByte (v <<< 8) = 0 := by
  ext i hi
  simp [loByte, hi]

theorem phaseStart_phaseInv (b : Byte) (hphase : d.phase = .start) (hd : d = .fresh) : (phaseStart b d).PhaseInv := by
  rw [phaseStart_writes_phase b hphase, hd]
  by_cases hshort : b = Config.startShort
  · rw [if_pos hshort]
    exact ⟨⟨rfl, rfl⟩, rfl⟩
  · rw [if_neg hshort]
    by_cases hlong : b = Config.startLong
    · rw [if_pos hlong]
      exact ⟨⟨rfl, rfl⟩, rfl⟩
    · rw [if_neg hlong]
      rfl

theorem memAppend_byte_length (l : Bytes) (b : Byte) : (memAppend l [b]).length = l.length + 1 := List.length_append

/-- The byte that makes the payload whole (R74). -/
theorem phasePayload_last (b : Byte) (h : d.payload.length + 1 = d.length.toNat) :
    phasePayload b d = { d with payload := d.payload ++ [b], phase := .crcHi } := by
  simp only [phasePayload, memAppend_byte_length, h, if_true]
  rfl

/-- A byte that does not (R74). -/
theorem phasePayload_more (b : Byte) (h : d.payload.length + 1 ≠ d.length.toNat) :
    phasePayload b d = { d with payload := d.payload ++ [b], phase := .payload } := by
  simp only [phasePayload, memAppend_byte_length, h, if_false]
  rfl

theorem phasePayload_phaseInv (b : Byte) (hd : 1 ≤ d.length.toNat → d.payload.length < d.length.toNat) :
    (phasePayload b d).PhaseInv := by
  have hlen : (d.payload ++ [b]).length = d.payload.length + 1 := List.length_append
  by_cases hlast : d.payload.length + 1 = d.length.toNat
  · rw [phasePayload_last b hlast]
    exact ⟨hlen.trans hlast, by dsimp only; omega⟩
  · rw [phasePayload_more b hlast]
    intro (hpos : 1 ≤ d.length.toNat)
    have hshort := hd hpos
    change (d.payload ++ [b]).length < d.length.toNat
    omega

theorem phaseStart_payload (b : Byte) (d : DecState) : (phaseStart b d).payload = d.payload := by
  unfold phaseStart
  split
  · rfl
  · split <;> rfl

theorem decodeByte_inv (hd : d.Inv cfg) (h : decodeByte cfg rom b d = .ok (d', o)) : d'.Inv cfg := by
  obtain ⟨hinv, hcap⟩ := (DecState.inv_iff cfg d).mp hd
  unfold DecState.PhaseInv at hinv
  rw [DecState.inv_iff]
  rcases decodeByte_cases h with ⟨hp, rfl, -⟩ | ⟨hp, rfl, -⟩ | ⟨hp, rfl, -⟩ | ⟨hp, hroom, rfl, -⟩ | ⟨hp, rfl, -⟩
    | ⟨hp, rfl, -⟩ | ⟨-, rfl, -⟩
  · rw [hp] at hinv
    rw [phaseStart_payload]
    exact ⟨phaseStart_phaseInv b hp hinv, hcap⟩
  · rw [hp] at hinv
    exact ⟨⟨hinv.1, loByte_shiftLeft (zext16 b)⟩, hcap⟩
  · rw [hp] at hinv
    obtain ⟨⟨hempty, -⟩, -⟩ := hinv
    refine ⟨fun hpos => ?_, hcap⟩
    rw [show (phaseLenLo b d).payload = [] from hempty]
    exact hpos
  · rw [hp] at hinv
    refine ⟨phasePayload_phaseInv b hinv, ?_⟩
    rwa [show (phasePayload b d).payload.length = d.payload.length + 1 from List.length_append]
  · rw [hp] at hinv
    exact ⟨⟨hinv, loByte_shiftLeft (zext16 b)⟩, hcap⟩
  · rw [hp] at hinv
    exact ⟨hinv.1, hcap⟩
  · exact ⟨rfl, fits_of_le fun c _ => Nat.zero_le c⟩

theorem decodeBytes_inv {l : Bytes} {os : List DecOutcome} (hd : d.Inv cfg)
    (h : decodeBytes cfg rom l d = .ok (d', os)) : d'.Inv cfg := by
  induction l generalizing d os with
  | nil =>
    cases h
    exact hd
  | cons b t ih =>
    obtain ⟨d₁, o, os', hb, ht, -⟩ := decodeBytes_cons_inv h
    exact ih (decodeByte_inv hd hb) ht

/-- The packets a feed offers are fresh (R18). -/
theorem decodeBytes_offered {l : Bytes} {os : List DecOutcome} (h : decodeBytes cfg rom l d = .ok (d', os)) :
    ∀ p ∈ os.filterMap DecOutcome.packet?, p.index = 0 := by
  induction l generalizing d os with
  | nil =>
    cases h
    nofun
  | cons b t ih =>
    obtain ⟨d₁, o, os', hb, ht, rfl⟩ := decodeBytes_cons_inv h
    intro p hp
    rw [List.filterMap_append, signal_packets, List.mem_append, Option.mem_toList] at hp
    exact hp.elim (decodeByte_offered hb p) (ih ht p)

/-! The block's invariant. -/

/-- The invariant but for its clause on a feed in progress, which is about the step and not about the operation. -/
structure State.OpInv (s : State) : Prop where
  config : s.cfg.wf = true
  decoder : s.ds.Inv s.cfg
  canonical : s.pkts.wf = true
  packets : ∀ e ∈ s.pkts, e.2.Inv s.cfg
  offered : ∀ p ∈ s.result.offered, p.index = 0

theorem State.inv_iff (s : State) :
    s.Inv ↔ s.OpInv ∧ (s.feeding ≠ [] → ∃ os, s.result = .outcomes os) :=
  ⟨fun ⟨hcfg, hds, hwf, hpkts, hoff, hfeed⟩ => ⟨⟨hcfg, hds, hwf, hpkts, hoff⟩, hfeed⟩,
    fun ⟨⟨hcfg, hds, hwf, hpkts, hoff⟩, hfeed⟩ => ⟨hcfg, hds, hwf, hpkts, hoff, hfeed⟩⟩

namespace State.OpInv

variable {s t : State} {pk : PktName} {p : Packet}

theorem putDs (hs : s.OpInv) (hd : d.Inv s.cfg) : (s.putDs d).OpInv := { hs with decoder := hd }

theorem putResult (hs : s.OpInv) {r : Result} (hr : ∀ p ∈ r.offered, p.index = 0) : (s.putResult r).OpInv :=
  { hs with offered := hr }

theorem putPending (hs : s.OpInv) (l : List Input) : (s.putPending l).OpInv := { hs with }

theorem putFeeding (hs : s.OpInv) (l : Bytes) : (s.putFeeding l).OpInv := { hs with }

theorem noPackets (hs : s.OpInv) : (s.putPkts []).OpInv := { hs with canonical := rfl, packets := nofun }

theorem setPacket (hs : s.OpInv) (hp : p.Inv s.cfg) : (s.putPkts (s.pkts.set pk p)).OpInv :=
  { hs with
    canonical := Memory.wf_set pk p hs.canonical
    packets := fun e he => (Memory.mem_set he).elim (fun h => h ▸ hp) (hs.packets e) }

theorem packet (hs : s.OpInv) (h : s.pkts.get pk = some p) : p.Inv s.cfg := hs.packets _ (Memory.mem_of_get h)

theorem receiveByte (hs : s.OpInv) (h : receiveByte b s = .next t) : t.OpInv := by
  obtain ⟨d, o, hd, rfl⟩ := receiveByte_next h
  exact (hs.putDs (decodeByte_inv hs.decoder hd)).putResult fun p hp =>
    decodeByte_offered hd p (Option.mem_toList.mp hp)

theorem execDecFeed {l : Bytes} (hs : s.OpInv) (h : execDecFeed l s = .next t) : t.OpInv := by
  obtain ⟨d, os, hd, rfl⟩ := execDecFeed_next h
  exact (hs.putDs (decodeBytes_inv hs.decoder hd)).putResult (decodeBytes_offered hd)

theorem createPacket (hs : s.OpInv) (hp : p.index = 0) (h : createPacket pk p s = .next t) : t.OpInv := by
  obtain ⟨hfit, rfl⟩ := createPacket_next h
  exact (hs.setPacket ⟨hp.trans_le (Nat.zero_le _), hfit⟩).putResult nofun

theorem execPktFromFields {fields : List FieldArg} (hs : s.OpInv) (h : execPktFromFields pk fields s = .next t) :
    t.OpInv := by
  unfold Machine.execPktFromFields at h
  split at h
  · cases h
  · next p hp =>
    obtain ⟨-, hindex, -⟩ := appendFields_ok hp
    exact hs.createPacket hindex h

theorem appendTo {w : Nat} {v scale : Rat} (hs : s.OpInv) (h : appendTo w pk v scale s = .next t) : t.OpInv := by
  obtain ⟨p, bs, hp, -, hfit, rfl⟩ := appendTo_next h
  have hcursor : p.index ≤ (p.message ++ bs).length :=
    (hs.packet hp).cursor.trans (List.length_append ▸ Nat.le_add_right _ _)
  exact (hs.setPacket ⟨hcursor, hfit⟩).putResult nofun

/-- `READ` moves the cursor over bytes that are there (R107, R116). -/
theorem readFrom {w : Nat} {scale : Rat} {adv : Bool} (hs : s.OpInv) (h : readFrom w pk scale adv s = .next t) :
    t.OpInv := by
  obtain ⟨p, hp, -, ⟨-, rfl⟩ | ⟨hrem, rfl⟩⟩ := readFrom_next h
  · exact hs.putResult nofun
  · obtain ⟨hcursor, hfit⟩ := hs.packet hp
    have hle : p.index + w / 8 ≤ p.message.length := by
      unfold Packet.remaining at hrem
      omega
    have hmoved : Packet.Inv s.cfg { p with index := p.index + w / 8 } := ⟨hle, hfit⟩
    cases adv with
    | false => exact hs.putResult nofun
    | true => exact (hs.setPacket hmoved).putResult nofun

theorem exec {i : Instr} (hs : s.OpInv) (h : exec i s = .next t) : t.OpInv := by
  cases i with
  | startShort | startLong | startIgnored | terminator | decByte => exact hs.receiveByte h
  | decFeed => exact hs.execDecFeed h
  | decReset =>
    cases h
    exact (hs.putDs (DecState.fresh_inv s.cfg)).putResult nofun
  | reset =>
    cases h
    exact ((hs.putDs (DecState.fresh_inv s.cfg)).noPackets).putResult nofun
  | crc16 =>
    cases h
    exact hs.putResult nofun
  | pktEmpty | pktFromBytes => exact hs.createPacket rfl h
  | pktFromFields => exact hs.execPktFromFields h
  | append8 | append16 | append32 => exact hs.appendTo h
  | read8 | read16 | read32 => exact hs.readFrom h
  | remaining =>
    obtain ⟨p, -, hp⟩ := withPacket_next h
    cases hp
    exact hs.putResult nofun
  | serialize =>
    obtain ⟨r, rfl, hr⟩ := execSerialize_next h
    exact hs.putResult (hr ▸ nofun)
  | reserved => cases h

theorem takeOffered {k : Nat} (hs : s.OpInv) (h : takeOffered pk k s = .next t) : t.OpInv := by
  obtain ⟨p, hp, hfit, rfl⟩ := takeOffered_next h
  have hindex : p.index = 0 := hs.offered p (List.mem_of_getElem? hp)
  exact hs.setPacket ⟨hindex.trans_le (Nat.zero_le _), hfit⟩

end State.OpInv

/-- An operation leaves no byte to be fed, or is a `DEC_FEED` and returns outcomes. -/
theorem exec_firstStep_feeding {i : Instr} {s t : State}
    (h : exec (firstStep i) (s.putFeeding (laterBytes i)) = .next t) :
    t.feeding ≠ [] → ∃ os, t.result = .outcomes os := by
  intro hfeed
  obtain ⟨d, m, r, ht⟩ := exec_writesAtMost h
  cases i with
  | decFeed l =>
    obtain ⟨d, os, -, rfl⟩ := execDecFeed_next h
    exact ⟨os, rfl⟩
  | _ => exact absurd (congrArg State.feeding ht) hfeed

/-- A further byte of a feed adds to the outcomes kept so far. -/
theorem continueFeed_inv {s t : State} (hs : s.OpInv) {os : List DecOutcome} (hos : s.result = .outcomes os)
    (h : continueFeed b s = .next t) : t.Inv := by
  obtain ⟨d, ps, hd, rfl⟩ := continueFeed_next h
  rw [hos, joinOutcomes_outcomes]
  refine (State.inv_iff _).mpr ⟨(hs.putDs (decodeBytes_inv hs.decoder hd)).putResult fun p hp => ?_, fun _ => ⟨_, rfl⟩⟩
  have hsofar : ∀ p ∈ os.filterMap DecOutcome.packet?, p.index = 0 := by
    have hoff := hs.offered
    rwa [hos] at hoff
  rw [Result.offered, List.filterMap_append, List.mem_append] at hp
  exact hp.elim (hsofar p) (decodeBytes_offered hd p)

/-- Settles O58: the decoder is fresh, and there is no packet, no offer and no feed. -/
theorem invariantAtReset : Obligations.InvariantAtReset :=
  ⟨rfl, DecState.fresh_inv _, rfl, nofun, nofun, fun h => absurd rfl h⟩

/-- Settles O59: the operation of the step keeps the invariant, and so does what the step uses up. -/
theorem stepKeepsInvariant : Obligations.StepKeepsInvariant := by
  intro s t hs h
  obtain ⟨hop, hfeed⟩ := (State.inv_iff s).mp hs
  rcases step_cases h with ⟨b, l, hl, hstep⟩ | ⟨hnone, hmove⟩
  · obtain ⟨os, hos⟩ := hfeed (hl ▸ List.cons_ne_nil b l)
    exact continueFeed_inv (hop.putFeeding l) hos hstep
  · rcases hmove with ⟨-, rfl⟩ | ⟨pk, k, rest, -, htake⟩ | ⟨r₁, r₂, rest, -, hover⟩ | ⟨r, rest, i, -, -, hexec⟩
    · exact hs
    · refine (State.inv_iff t).mpr ⟨(hop.putPending rest).takeOffered htake, fun hne => ?_⟩
      obtain ⟨p, -, -, rfl⟩ := takeOffered_next htake
      exact absurd hnone hne
    · obtain ⟨-, rfl⟩ := overlapRequests_next hover
      exact (State.inv_iff _).mpr ⟨(hop.putPending _).putPending _, fun hne => absurd hnone hne⟩
    · exact (State.inv_iff t).mpr
        ⟨((hop.putPending rest).putFeeding (laterBytes i)).exec hexec, exec_firstStep_feeding hexec⟩

end Sys2Proof.Machine
end

section
/-! Feeds and their steps (R80, R165): a chunk completes when the payload buffer is unbounded, and the steps of a feed
are its bytes one at a time. -/

namespace Sys2Proof.Machine

variable {cfg : Config} {rom : Vector U16 256} {l m : Bytes} {d d' : DecState} {os : List DecOutcome} {s t : State}

theorem signal_eq_ite (o : DecOutcome) : o.signal = if o = .silent then [] else [o] := by
  cases o <;> rfl

theorem silent_not_mem_signal (o : DecOutcome) : .silent ∉ o.signal := by
  cases o <;> simp [DecOutcome.signal]

/-- A feed returns no `NONE` (R80). -/
theorem silent_not_mem_decodeBytes (h : decodeBytes cfg rom l d = .ok (d', os)) : .silent ∉ os := by
  induction l generalizing d os with
  | nil =>
    cases h
    exact List.not_mem_nil
  | cons b t ih =>
    obtain ⟨d₁, o, os', -, ht, rfl⟩ := decodeBytes_cons_inv h
    exact List.not_mem_append (silent_not_mem_signal o) (ih ht)

theorem decodeByte_completes_of_unbounded (hcap : cfg.payloadCap = none) (rom : Vector U16 256) (b : Byte)
    (d : DecState) : ∃ d' o, decodeByte cfg rom b d = .ok (d', o) :=
  decodeByte_completes rom b d fun _ => by rw [hcap, fits_none]

theorem decodeBytes_completes_of_unbounded (hcap : cfg.payloadCap = none) (rom : Vector U16 256) (l : Bytes)
    (d : DecState) : ∃ d' os, decodeBytes cfg rom l d = .ok (d', os) := by
  induction l generalizing d with
  | nil => exact ⟨d, [], rfl⟩
  | cons b t ih =>
    obtain ⟨d₁, o, hb⟩ := decodeByte_completes_of_unbounded hcap rom b d
    obtain ⟨d₂, os, ht⟩ := ih d₁
    exact ⟨d₂, o.signal ++ os, decodeBytes_cons_ok hb ht⟩

/-- Settles O15: an unbounded buffer has room for every byte, and only phase 6 reports. -/
theorem byteAndFeedAlwaysComplete : Obligations.ByteAndFeedAlwaysComplete := by
  refine ⟨fun s b hcap => ?byte, fun s l hcap => ?feed⟩
  case byte =>
    obtain ⟨d, o, hd⟩ := decodeByte_completes_of_unbounded hcap s.rom b s.ds
    refine ⟨d, o, receiveByte_of hd, fun ho => ⟨?_, decodeByte_fresh_of_signal hd (ho ▸ nofun)⟩⟩
    exact Decidable.not_not.mp fun hphase => absurd (ho.symm.trans (decodeByte_silent hd hphase)) nofun
  case feed =>
    obtain ⟨d, os, hd⟩ := decodeBytes_completes_of_unbounded hcap s.rom l s.ds
    exact ⟨d, os, execDecFeed_of hd, silent_not_mem_decodeBytes hd⟩

/-- Settles O18: the recursion of `decodeBytes`, on the state between the byte and the rest. -/
theorem feedIsByteSequence : Obligations.FeedIsByteSequence := by
  refine ⟨fun s => rfl, fun s s₁ s₂ b l o os hbyte ho hfeed hos => ?_⟩
  obtain ⟨d₁, o, hd₁, rfl⟩ := receiveByte_next hbyte
  obtain ⟨d₂, os, hd₂, rfl⟩ := execDecFeed_next hfeed
  cases ho
  cases hos
  rw [← signal_eq_ite]
  exact execDecFeed_of (decodeBytes_cons_ok hd₁ hd₂)

/-! Steps. -/

/-- With no feed in progress a call runs the first step of what it decodes to, and leaves the rest of it for later. -/
theorem step_call {r : Request} {rest : List Input} {i : Instr} (hfeed : s.feeding = [])
    (hp : s.pending = .call r :: rest) (hd : decode s.ds.phase r = .ok i) :
    step s = exec (firstStep i) ((s.putPending rest).putFeeding (laterBytes i)) := by
  simp only [step, hfeed, runMove, hp, hd]

theorem putFeeding_nil (hfeed : s.feeding = []) : s.putFeeding [] = s := by
  rw [← hfeed]
  rfl

theorem step_call_whole {r : Request} {rest : List Input} {i : Instr} (hfeed : s.feeding = [])
    (hp : s.pending = .call r :: rest) (hd : decode s.ds.phase r = .ok i) (hi : ∀ l, i ≠ .decFeed l) :
    step s = exec i (s.putPending rest) := by
  obtain ⟨hfirst, hlater⟩ := firstStep_whole hi
  rw [step_call hfeed hp hd, hfirst, hlater, putFeeding_nil (s := s.putPending rest) hfeed]

theorem step_feeding {b : Byte} {l : Bytes} (hfeed : s.feeding = b :: l) :
    step s = continueFeed b (s.putFeeding l) := by
  simp only [step, hfeed]

theorem decodeBytes_singleton {b : Byte} {o : DecOutcome} (h : decodeByte cfg rom b d = .ok (d', o)) :
    decodeBytes cfg rom [b] d = .ok (d', o.signal) := by
  simpa using decodeBytes_cons_ok h (decodeBytes_nil cfg rom d')

/-- A further byte of a feed, with the outcomes kept so far. -/
theorem step_feeding_of {b : Byte} {ps : List DecOutcome} (hfeed : s.feeding = b :: l) (hos : s.result = .outcomes os)
    (hd : decodeBytes s.cfg s.rom [b] s.ds = .ok (d, ps)) :
    step s = .next (((s.putDs d).putResult (.outcomes (os ++ ps))).putFeeding l) := by
  rw [step_feeding hfeed, continueFeed_of (s := s.putFeeding l) hd, State.putFeeding_result, hos]
  rfl

/-- Settles O49: the decoded operation, the first byte of a feed, and a further byte completed or refused. -/
theorem stepRunsDecodedInstruction : Obligations.StepRunsDecodedInstruction := by
  refine ⟨fun s r rest i hfeed hp hd hi => step_call_whole hfeed hp hd hi,
    fun s r rest l hfeed hp hd => step_call hfeed hp hd, fun s t b l os ps hfeed hos hexec hps => ?further,
    fun s b l r hfeed hexec => ?refused⟩
  case further =>
    obtain ⟨d, ps, hd, rfl⟩ := execDecFeed_next hexec
    cases hps
    exact step_feeding_of hfeed hos hd
  case refused =>
    have hbyte : execDecFeed [b] (s.putFeeding l) = .refused r := hexec
    simp only [step_feeding hfeed, continueFeed, hbyte]

theorem run_succ (k : Nat) (h : step s = .next t) : Sys2Proof.core.run (k + 1) s = Sys2Proof.core.run k t := by
  have hcore : Sys2Proof.core.step s = .next t := h
  simp only [Host.Core.run, hcore]

/-- The further steps of a feed in progress are its next bytes at once. -/
theorem run_feeding {ps : List DecOutcome} (hfeed : s.feeding = l ++ m) (hos : s.result = .outcomes os)
    (hd : decodeBytes s.cfg s.rom l s.ds = .ok (d, ps)) :
    Sys2Proof.core.run l.length s = .next (((s.putDs d).putResult (.outcomes (os ++ ps))).putFeeding m) := by
  induction l generalizing s os ps with
  | nil =>
    cases hd
    rw [List.append_nil, ← hos, ← show s.feeding = m from hfeed]
    rfl
  | cons b t ih =>
    obtain ⟨d₁, o, os', hb, ht, rfl⟩ := decodeBytes_cons_inv hd
    rw [List.length_cons, run_succ t.length (step_feeding_of hfeed hos (decodeBytes_singleton hb)), ← List.append_assoc]
    exact ih rfl rfl ht

/-- The first step of a feed is its first byte. -/
theorem step_feed {b : Byte} {rest : List Input} {o : DecOutcome} (hfeed : s.feeding = [])
    (hp : s.pending = .call (.feed (b :: l)) :: rest) (hb : decodeByte s.cfg s.rom b s.ds = .ok (d, o)) :
    step s = .next ((((s.putPending rest).putFeeding l).putDs d).putResult (.outcomes o.signal)) :=
  (step_call hfeed hp rfl).trans (execDecFeed_of (decodeBytes_singleton hb))

/-- A byte presented on the wire or as a command is received. -/
theorem step_byte {r : Request} {b : Byte} {rest : List Input} (hr : r = .wire b ∨ r = .command 0x20 (.byte b))
    (hfeed : s.feeding = []) (hp : s.pending = .call r :: rest) : step s = receiveByte b (s.putPending rest) := by
  rcases hr with rfl | rfl
  · rw [← exec_decodeWire s.ds.phase]
    exact step_call_whole hfeed hp rfl (decodeWire_ne_decFeed s.ds.phase b)
  · exact step_call_whole hfeed hp rfl nofun

theorem run_bytes {present : Byte → Request} {rest : List Input}
    (hpresent : ∀ b, present b = .wire b ∨ present b = .command 0x20 (.byte b)) (hfeed : s.feeding = [])
    (hp : s.pending = l.map (fun b => .call (present b)) ++ rest) (hd : decodeBytes s.cfg s.rom l s.ds = .ok (d, os)) :
    ∃ r, Sys2Proof.core.run l.length s = .next (((s.putDs d).putResult r).putPending rest) := by
  induction l generalizing s os with
  | nil =>
    cases hd
    refine ⟨s.result, ?_⟩
    rw [← show s.pending = rest from hp]
    rfl
  | cons b t ih =>
    obtain ⟨d₁, o, os', hb, ht, -⟩ := decodeBytes_cons_inv hd
    have hstep := (step_byte (hpresent b) hfeed hp).trans (receiveByte_of hb)
    rw [List.length_cons, run_succ t.length hstep]
    exact ih hfeed rfl ht

/-! Moves that run no operation (R39 to R41, R140, R153). -/

/-- With no feed in progress a step is the caller's next move. -/
theorem step_eq_runMove (hfeed : s.feeding = []) : step s = runMove s := by
  simp only [step, hfeed]

theorem step_take {pk : PktName} {k : Nat} {rest : List Input} (hfeed : s.feeding = [])
    (hp : s.pending = .take pk k :: rest) : step s = takeOffered pk k (s.putPending rest) := by
  simp only [step_eq_runMove hfeed, runMove, hp]

theorem step_overlapping {r₁ r₂ : Request} {rest : List Input} (hfeed : s.feeding = [])
    (hp : s.pending = .overlapping r₁ r₂ :: rest) : step s = overlapRequests r₁ r₂ (s.putPending rest) := by
  simp only [step_eq_runMove hfeed, runMove, hp]

theorem not_fits_of_lt {c n : Nat} (h : c < n) : fits (some c) n = false := by
  simpa [fits] using h

/-- Settles O50: no move, and a take by what is offered and whether it fits. -/
theorem stepHoldsAndTakes : Obligations.StepHoldsAndTakes := by
  refine ⟨fun s hfeed hp => ?hold, fun s pk k rest p hfeed hp hoff => ⟨fun hfit => ?taken, fun c hc hlt => ?exceeds⟩,
    fun s pk k rest hfeed hp hoff => ?absent⟩
  case hold => simp only [step_eq_runMove hfeed, runMove, hp]
  case taken =>
    have hfits : fits s.cfg.msgCap p.message.length = true := fits_of_le hfit
    simp only [step_take hfeed hp, takeOffered, State.putPending_result, hoff, State.putPending_cfg, hfits, if_true]
    rfl
  case exceeds =>
    simp [step_take hfeed hp, takeOffered, hoff, hc, not_fits_of_lt hlt]
  case absent => simp only [step_take hfeed hp, takeOffered, State.putPending_result, hoff]

/-- Settles O51: the test is on the two requests, and it is the operations' own by `onDecoder_of_decode`. -/
theorem overlapOnDecoderIsRefused : Obligations.OverlapOnDecoderIsRefused := by
  refine ⟨fun s r₁ r₂ rest hfeed hp => ⟨fun h₁ h₂ => ?both, fun h => ?notBoth⟩, fun ph r i h => onDecoder_of_decode h⟩
  case both =>
    rw [step_overlapping hfeed hp, overlapRequests, h₁, h₂]
    rfl
  case notBoth =>
    have hand : (r₁.onDecoder && r₂.onDecoder) = false := by rwa [Bool.and_eq_false_iff]
    rw [step_overlapping hfeed hp, overlapRequests, hand]
    rfl

/-! Runs. -/

/-- Settles O20: the first byte by the call, the others by the feed in progress; and bytes presented one by one. -/
theorem feedIsOneStepPerByte : Obligations.FeedIsOneStepPerByte := by
  refine ⟨fun s t l rest j hfeed hp hj hle hexec => ?feed, fun present s t l rest hpresent hfeed hp hexec => ?bytes⟩
  case feed =>
    obtain ⟨b, l, rfl⟩ := List.exists_cons_of_length_pos (hj.trans hle)
    obtain ⟨k, rfl⟩ := Nat.exists_eq_add_of_le' hj
    obtain ⟨d, os, hd, rfl⟩ := execDecFeed_next hexec
    obtain ⟨d₁, o, os', hb, ht, rfl⟩ := decodeBytes_cons_inv hd
    have hk : (l.take k).length = k := List.length_take_of_le (Nat.le_of_succ_le_succ hle)
    have hrun := run_feeding (s := (((s.putPending rest).putFeeding l).putDs d₁).putResult (.outcomes o.signal))
      (List.take_append_drop k l).symm rfl ht
    rw [hk] at hrun
    exact (run_succ k (step_feed hfeed hp hb)).trans hrun
  case bytes =>
    obtain ⟨d, os, hd, rfl⟩ := execDecFeed_next hexec
    exact run_bytes hpresent hfeed hp hd

end Sys2Proof.Machine
end

section
/-! Frames received (R57, R61, R83 to R87): a header, the payload it declares and the checksum bytes are read in silence,
and the byte after them is judged; a declared length of 0 swallows what comes. -/

namespace Sys2Proof.Machine

variable {cfg : Config} {rom : Vector U16 256} {l : Bytes} {d d' : DecState} {os : List DecOutcome} {s t : State}

/-! The two halves of a word. -/

theorem hiByte_ofNat (n : Nat) : hiByte (BitVec.ofNat 16 n) = BitVec.ofNat 8 (n / 256) := by
  apply BitVec.eq_of_toNat_eq
  simp only [hiByte, BitVec.extractLsb'_toNat, BitVec.toNat_ofNat, Nat.shiftRight_eq_div_pow]
  omega

theorem loByte_ofNat (n : Nat) : loByte (BitVec.ofNat 16 n) = BitVec.ofNat 8 (n % 256) := by
  apply BitVec.eq_of_toNat_eq
  simp only [loByte, BitVec.extractLsb'_toNat, BitVec.toNat_ofNat, Nat.shiftRight_zero]
  omega

theorem ofNat_mod_256 (n : Nat) : BitVec.ofNat 8 (n % 256) = BitVec.ofNat 8 n := by
  apply BitVec.eq_of_toNat_eq
  simp only [BitVec.toNat_ofNat]
  omega

theorem hiByte_hi_or_lo (hi lo : Byte) : hiByte (zext16 hi <<< 8 ||| zext16 lo) = hi := by
  ext i h
  have h16 : 8 + i < 16 := by omega
  simp [hiByte, zext16, h16, BitVec.getLsbD_eq_getElem h]

theorem loByte_hi_or_lo (hi lo : Byte) : loByte (zext16 hi <<< 8 ||| zext16 lo) = lo := by
  ext i h
  have h16 : i < 16 := by omega
  simp [loByte, zext16, h, h16]

/-- Two bytes make a word exactly when they are its halves. -/
theorem eq_hi_or_lo_iff (c : U16) (hi lo : Byte) :
    c = zext16 hi <<< 8 ||| zext16 lo ↔ hi = hiByte c ∧ lo = loByte c := by
  constructor
  · rintro rfl
    exact ⟨(hiByte_hi_or_lo hi lo).symm, (loByte_hi_or_lo hi lo).symm⟩
  · rintro ⟨rfl, rfl⟩
    exact (hi_or_lo c).symm

/-! Headers (R54, R57, R61, R121). -/

/-- The start marker and length bytes that declare `n`, in either form and canonical or not (R57, R61). -/
def IsHeader (hdr : Bytes) (n : Nat) : Prop :=
  hdr = [Config.startShort, BitVec.ofNat 8 n] ∧ n ≤ 255
    ∨ hdr = [Config.startLong, BitVec.ofNat 8 (n / 256), BitVec.ofNat 8 (n % 256)] ∧ n ≤ 65535

theorem IsHeader.le_lenMax {hdr : Bytes} {n : Nat} (h : IsHeader hdr n) : n ≤ Config.lenMax := by
  unfold Config.lenMax
  rcases h with ⟨-, hn⟩ | ⟨-, hn⟩ <;> omega

theorem frameHeader_short {n : Nat} (h : n ≤ 255) : frameHeader n = [Config.startShort, BitVec.ofNat 8 n] :=
  if_pos h

theorem frameHeader_long {n : Nat} (h : 256 ≤ n) :
    frameHeader n = [Config.startLong, BitVec.ofNat 8 (n / 256), BitVec.ofNat 8 (n % 256)] := by
  have hn : ¬ n ≤ Config.shortMax := by
    unfold Config.shortMax
    omega
  rw [frameHeader, if_neg hn, Nat.shiftRight_eq_div_pow, ofNat_mod_256]

theorem isHeader_frameHeader {n : Nat} (h : n ≤ 65535) : IsHeader (frameHeader n) n := by
  rcases Nat.lt_or_ge n 256 with hn | hn
  · exact .inl ⟨frameHeader_short (Nat.le_of_lt_succ hn), Nat.le_of_lt_succ hn⟩
  · exact .inr ⟨frameHeader_long hn, h⟩

theorem decodeBytes_cons_silent {b : Byte} (t : Bytes) (h : decodeByte cfg rom b d = .ok (d', .silent)) :
    decodeBytes cfg rom (b :: t) d = decodeBytes cfg rom t d' := by
  simp only [decodeBytes, h]
  cases decodeBytes cfg rom t d' <;> rfl

/-- A header leads to phase 3 with the length it declares (R71 to R73). -/
theorem decodeBytes_header (cfg : Config) (rom : Vector U16 256) {hdr : Bytes} {n : Nat} (h : IsHeader hdr n) :
    decodeBytes cfg rom hdr .fresh = .ok (⟨.payload, [], BitVec.ofNat 16 n, 0⟩, []) := by
  rcases h with ⟨rfl, hn⟩ | ⟨rfl, -⟩
  · have hlen : (0 : U16) ||| zext16 (BitVec.ofNat 8 n) = BitVec.ofNat 16 n := by
      apply BitVec.eq_of_toNat_eq
      simp [zext16]
      omega
    rw [← hlen]
    rfl
  · have hlen : zext16 (BitVec.ofNat 8 (n / 256)) <<< 8 ||| zext16 (BitVec.ofNat 8 (n % 256)) = BitVec.ofNat 16 n := by
      rw [← hiByte_ofNat, ← loByte_ofNat, hi_or_lo]
    rw [← hlen]
    rfl

/-! The payload (R74). -/

/-- As many bytes as are missing make the payload whole, in silence. -/
theorem decodeBytes_payload (rom : Vector U16 256) {p : Bytes} {n : U16} (c : U16) (hpos : 1 ≤ l.length)
    (hlen : p.length + l.length = n.toNat) (hcap : fits cfg.payloadCap n.toNat = true) :
    decodeBytes cfg rom l ⟨.payload, p, n, c⟩ = .ok (⟨.crcHi, p ++ l, n, c⟩, []) := by
  induction l generalizing p with
  | nil => cases hpos
  | cons b t ih =>
    rw [List.length_cons] at hlen
    have hroom : fits cfg.payloadCap (p.length + 1) = true := fits_mono (by omega) hcap
    rw [decodeBytes_cons_silent t (decodeByte_payload cfg rom b rfl hroom)]
    cases t with
    | nil => rw [phasePayload_last b hlen, decodeBytes_nil]
    | cons b' t' =>
      have hmore : p.length + 1 ≠ n.toNat := by
        rw [List.length_cons] at hlen
        omega
      have hlen' : (p ++ [b]).length + (b' :: t').length = n.toNat := by
        rw [List.length_append, List.length_singleton, Nat.add_assoc, Nat.add_comm 1, hlen]
      rw [phasePayload_more b hmore, ih (Nat.le_add_left 1 _) hlen', List.append_assoc]
      rfl

/-- After a declared length of 0 every byte is appended, in silence (R83). -/
theorem decodeBytes_hung (rom : Vector U16 256) (hd : d.hung)
    (hcap : fits cfg.payloadCap (d.payload.length + l.length) = true) :
    decodeBytes cfg rom l d = .ok ({ d with payload := d.payload ++ l }, []) := by
  induction l generalizing d with
  | nil => rw [decodeBytes_nil, List.append_nil]
  | cons b t ih =>
    obtain ⟨ph, p, n, c⟩ := d
    obtain ⟨rfl, rfl⟩ : ph = .payload ∧ n = 0 := hd
    rw [List.length_cons] at hcap
    have hroom : fits cfg.payloadCap (p.length + 1) = true := fits_mono (by dsimp only; omega) hcap
    have hcap' : fits cfg.payloadCap ((p ++ [b]).length + t.length) = true := by
      rwa [List.length_append, List.length_singleton, Nat.add_assoc, Nat.add_comm 1]
    have hmore : p.length + 1 ≠ (0 : U16).toNat := Nat.succ_ne_zero _
    rw [decodeBytes_cons_silent t (decodeByte_payload cfg rom b rfl hroom), phasePayload_more b hmore,
      ih ⟨rfl, rfl⟩ hcap', List.append_assoc]
    rfl

/-! Whole frame attempts (R57, R61, R156). -/

/-- A legal `PAYLOAD_CAP` holds every payload a header can declare (R3, R38). -/
theorem fits_payloadCap_of_wf (hwf : cfg.wf = true) {n : Nat} (hn : n ≤ Config.lenMax) :
    fits cfg.payloadCap n = true := by
  refine fits_of_le fun c hc => hn.trans ?_
  simpa only [Config.wf, hc, decide_eq_true_eq] using hwf

/-- Up to the checksum bytes a frame attempt is silent, and the decoder holds what it declared. -/
theorem decodeBytes_attempt (rom : Vector U16 256) (hwf : cfg.wf = true) {hdr : Bytes} (hhdr : IsHeader hdr l.length)
    (hpos : 1 ≤ l.length) (c₁ c₂ : Byte) :
    decodeBytes cfg rom (hdr ++ l ++ [c₁, c₂]) .fresh
      = .ok (⟨.terminate, l, BitVec.ofNat 16 l.length, zext16 c₁ <<< 8 ||| zext16 c₂⟩, []) := by
  have hmax : l.length ≤ 65535 := hhdr.le_lenMax
  have hlen : (BitVec.ofNat 16 l.length).toNat = l.length := by
    rw [BitVec.toNat_ofNat]
    omega
  have hcap : fits cfg.payloadCap (BitVec.ofNat 16 l.length).toNat = true :=
    hlen.symm ▸ fits_payloadCap_of_wf hwf hhdr.le_lenMax
  have hpayload := decodeBytes_payload rom (p := []) 0 hpos ((Nat.zero_add _).trans hlen.symm) hcap
  have hcrc : decodeBytes cfg rom [c₁, c₂] ⟨.crcHi, [] ++ l, BitVec.ofNat 16 l.length, 0⟩
      = .ok (⟨.terminate, l, BitVec.ofNat 16 l.length, zext16 c₁ <<< 8 ||| zext16 c₂⟩, []) := rfl
  exact decodeBytes_append_ok (decodeBytes_append_ok (decodeBytes_header cfg rom hhdr) hpayload) hcrc

theorem signal_verify (rom : Vector U16 256) (b : Byte) (d : DecState) :
    (verify rom b d).signal = [verify rom b d] := by
  rcases verify_signals rom b d with h | ⟨p, h⟩
  all_goals
    rw [h]
    rfl

/-- The byte after the checksum bytes is judged, and the decoder is fresh again. -/
theorem decodeBytes_attempt_judged (rom : Vector U16 256) (hwf : cfg.wf = true) {hdr : Bytes}
    (hhdr : IsHeader hdr l.length) (hpos : 1 ≤ l.length) (c₁ c₂ b : Byte) :
    decodeBytes cfg rom (hdr ++ l ++ [c₁, c₂] ++ [b]) .fresh
      = .ok (.fresh, [if b = Config.terminator ∧ crc16 rom l = zext16 c₁ <<< 8 ||| zext16 c₂ then .success ⟨l, 0⟩
          else .failure]) := by
  have hlast := decodeBytes_singleton (decodeByte_terminate cfg rom b
    (d := ⟨.terminate, l, BitVec.ofNat 16 l.length, zext16 c₁ <<< 8 ||| zext16 c₂⟩) rfl)
  rw [signal_verify] at hlast
  exact decodeBytes_append_ok (decodeBytes_attempt rom hwf hhdr hpos c₁ c₂) hlast

/-- A feed that leaves the decoder as it was writes its outcomes alone. -/
theorem execDecFeed_of_same (h : decodeBytes s.cfg s.rom l s.ds = .ok (s.ds, os)) :
    execDecFeed l s = .next { s with result := .outcomes os } :=
  execDecFeed_of h

/-- Settles O22: the attempt short of its last byte, and with it. -/
theorem frameAttemptSignalsAtItsLastByte : Obligations.FrameAttemptSignalsAtItsLastByte := by
  intro s hdr l c₁ c₂ b hds hwf hpos hhdr
  refine ⟨execDecFeed_of ?silent, execDecFeed_of_same ?judged⟩
  case silent =>
    rw [hds]
    exact decodeBytes_attempt s.rom hwf hhdr hpos c₁ c₂
  case judged =>
    have hsplit : hdr ++ l ++ [c₁, c₂, b] = hdr ++ l ++ [c₁, c₂] ++ [b] := by simp
    rw [hds, hsplit]
    exact decodeBytes_attempt_judged s.rom hwf hhdr hpos c₁ c₂ b

/-! Serialized frames (R86, R87). -/

theorem exec_serialize (s : State) (h : l.length ≤ 65535) :
    exec (.serialize (.lit l)) s
      = .next { s with result := .bytes (frameHeader l.length ++ l ++ frameTrailer (crc16 s.rom l)) } :=
  exec_serialize_of_ok (serializeFrame_of_le s.rom h)

theorem exec_serialize_empty (s : State) :
    exec (.serialize (.lit [])) s = .next { s with result := .bytes [0x02, 0x00, 0x00, 0x00, 0x03] } := by
  have hframe : frameHeader 0 ++ [] ++ frameTrailer Config.crcInit = [0x02, 0x00, 0x00, 0x00, 0x03] := by decide
  rw [← hframe]
  exact exec_serialize s (Nat.zero_le 65535)

/-- A serialized frame with any checksum bytes in place of its own: `SUCCESS` exactly with its own (R86, R87). -/
theorem decodeBytes_frame (rom : Vector U16 256) (hwf : cfg.wf = true) (hpos : 1 ≤ l.length) (hmax : l.length ≤ 65535)
    (hi lo : Byte) :
    decodeBytes cfg rom (frameHeader l.length ++ l ++ [hi, lo, Config.terminator]) .fresh
      = .ok (.fresh,
          [if hi = hiByte (crc16 rom l) ∧ lo = loByte (crc16 rom l) then .success ⟨l, 0⟩ else .failure]) := by
  have hsplit : frameHeader l.length ++ l ++ [hi, lo, Config.terminator]
      = frameHeader l.length ++ l ++ [hi, lo] ++ [Config.terminator] := by simp
  rw [hsplit, decodeBytes_attempt_judged rom hwf (isHeader_frameHeader hmax) hpos]
  simp only [true_and, eq_hi_or_lo_iff]

/-- Settles O23: the frame short of its terminator, the whole frame, and the frame of no bytes. -/
theorem serializedFrameDecodes : Obligations.SerializedFrameDecodes := by
  intro s (hds : s.ds = .fresh) hwf
  refine ⟨fun l hpos hmax => ?payload, _, exec_serialize_empty s, ?empty⟩
  case payload =>
    have hsplit : frameHeader l.length ++ l ++ frameTrailer (crc16 s.rom l)
        = frameHeader l.length ++ l ++ [hiByte (crc16 s.rom l), loByte (crc16 s.rom l)] ++ [Config.terminator] := by
      simp [frameTrailer]
    have hframe := decodeBytes_frame s.rom hwf hpos hmax (hiByte (crc16 s.rom l)) (loByte (crc16 s.rom l))
    have hsilent := decodeBytes_attempt s.rom hwf (isHeader_frameHeader hmax) hpos (hiByte (crc16 s.rom l))
      (loByte (crc16 s.rom l))
    rw [if_pos ⟨rfl, rfl⟩, ← hds] at hframe
    rw [← hds] at hsilent
    have hfeed := execDecFeed_of hsilent
    exact ⟨_, Config.terminator, hsplit ▸ exec_serialize s hmax, ⟨_, hfeed⟩,
      hsplit ▸ execDecFeed_of_same hframe⟩
  case empty =>
    have hcap : fits s.cfg.payloadCap 3 = true := fits_payloadCap_of_wf hwf (by decide)
    have hheader := decodeBytes_header s.cfg s.rom (isHeader_frameHeader (Nat.zero_le 65535))
    have hrest := decodeBytes_hung (l := [0x00, 0x00, 0x03]) s.rom (d := ⟨.payload, [], 0, 0⟩) ⟨rfl, rfl⟩ hcap
    refine ⟨⟨.payload, [0x00, 0x00, 0x03], 0, 0⟩, by decide, execDecFeed_of ?_⟩
    rw [hds]
    exact decodeBytes_append_ok hheader hrest

/-- Settles O24: the frame's own bytes are where the header and payload end, and others are not its checksum. -/
theorem corruptedCrcByteIsRejected : Obligations.CorruptedCrcByteIsRejected := by
  intro s l pre hi lo hi' lo' (hds : s.ds = .fresh) hwf hpos hmax hser hne
  rw [exec_serialize s hmax] at hser
  have hbytes : frameHeader l.length ++ l ++ frameTrailer (crc16 s.rom l) = pre ++ [hi, lo, 0x03] := by
    simpa using hser
  obtain ⟨rfl, htrailer⟩ := List.append_inj' hbytes rfl
  obtain ⟨rfl, rfl⟩ : hiByte (crc16 s.rom l) = hi ∧ loByte (crc16 s.rom l) = lo := by
    simpa [frameTrailer, Config.terminator] using htrailer
  have hframe := decodeBytes_frame s.rom hwf hpos hmax hi' lo'
  rw [if_neg (not_and_or.mpr hne), ← hds] at hframe
  exact execDecFeed_of_same hframe

/-! A declared length of 0 (R83). -/

theorem decodeByte_hung {b : Byte} {o : DecOutcome} (hd : d.hung) (h : decodeByte cfg rom b d = .ok (d', o)) :
    d'.hung := by
  obtain ⟨hphase, hlength⟩ := hd
  rcases decodeByte_cases h with ⟨hp, -⟩ | ⟨hp, -⟩ | ⟨hp, -⟩ | ⟨-, -, rfl, -⟩ | ⟨hp, -⟩ | ⟨hp, -⟩ | ⟨hp, -⟩
  case inr.inr.inr.inl =>
    rw [phasePayload_more b (by simp [hlength])]
    exact ⟨rfl, hlength⟩
  all_goals exact absurd (hphase.symm.trans hp) nofun

theorem decodeBytes_keeps_hung (hd : d.hung) (h : decodeBytes cfg rom l d = .ok (d', os)) : d'.hung := by
  induction l generalizing d os with
  | nil =>
    cases h
    exact hd
  | cons b t ih =>
    obtain ⟨d₁, o, os', hb, ht, -⟩ := decodeBytes_cons_inv h
    exact ih (decodeByte_hung hd hb) ht

/-- Only `DEC_RESET` and `RESET` leave the hang. -/
theorem exec_keeps_hung {i : Instr} (hs : s.ds.hung) (h : exec i s = .next t) (hdec : i ≠ .decReset)
    (hres : i ≠ .reset) : t.ds.hung := by
  cases hi : onDecoder i with
  | false => rwa [(ignoresDs_exec hi).next_ds h]
  | true =>
    cases i with
    | startShort | startLong | startIgnored | terminator | decByte =>
      obtain ⟨d, o, hd, rfl⟩ := receiveByte_next h
      exact decodeByte_hung hs hd
    | decFeed =>
      obtain ⟨d, os, hd, rfl⟩ := execDecFeed_next h
      exact decodeBytes_keeps_hung hs hd
    | decReset => exact absurd rfl hdec
    | reset => exact absurd rfl hres
    | _ => cases hi

/-- Settles O21: the two headers, the bytes after them, who stays and who leaves, and the encoder's frame. -/
theorem zeroLengthHangs : Obligations.ZeroLengthHangs := by
  refine ⟨fun s hds => ⟨execDecFeed_of ?short, execDecFeed_of ?long⟩, fun s l hs hcap => execDecFeed_of ?swallows,
    fun s t i hs h hdec hres => exec_keeps_hung hs h hdec hres, ?leaves, fun s t h => ?frame⟩
  case short =>
    rw [hds]
    exact decodeBytes_header s.cfg s.rom (.inl ⟨rfl, Nat.zero_le 255⟩)
  case long =>
    rw [hds]
    exact decodeBytes_header s.cfg s.rom (.inr ⟨rfl, Nat.zero_le 65535⟩)
  case swallows => exact decodeBytes_hung s.rom hs (by rw [hcap, fits_none])
  case leaves =>
    rintro s t i (rfl | rfl) h
    all_goals
      cases h
      rfl
  case frame =>
    rw [exec_serialize_empty] at h
    cases h
    rfl

/-! The two forms (R51, R52, R121, R125). -/

/-- Settles O42: the header of each form, and a packet's message as the operand. -/
theorem serializeChoosesTheForm : Obligations.SerializeChoosesTheForm := by
  refine ⟨fun s l hl => ?short, fun s l hmin hmax => ?long, fun s pk p hp => withPacket_some _ hp⟩
  case short =>
    rw [exec_serialize s (by omega), frameHeader_short hl]
    rfl
  case long =>
    rw [exec_serialize s hmax, frameHeader_long hmin]
    rfl

/-- Settles O44: the length test comes first. -/
theorem serializeTooLongIsMalformed : Obligations.SerializeTooLongIsMalformed := by
  intro s l hl
  change execSerialize (.lit l) s = _
  simp only [execSerialize, withPayload, serializeFrame_tooLong s.rom hl]
  rfl

end Sys2Proof.Machine
end

section
/-! The default table (R94 to R97): a step with it is eight steps of the division by the polynomial, which is linear and
loses nothing, so that the checksum is linear and tells two values of one byte apart. -/

namespace Sys2Proof.Machine

/-! One step of the division. -/

/-- The two branches as one exclusive-or. -/
theorem crcGenBit_eq (x : U16) : crcGenBit x = x <<< 1 ^^^ if x.getLsbD 15 then 0x1021 else 0 := by
  unfold crcGenBit
  split
  · rfl
  · exact BitVec.xor_zero.symm

theorem crcGenBit_xor (x y : U16) : crcGenBit (x ^^^ y) = crcGenBit x ^^^ crcGenBit y := by
  have hpoly : (if (x ^^^ y).getLsbD 15 then (0x1021 : U16) else 0)
      = (if x.getLsbD 15 then 0x1021 else 0) ^^^ (if y.getLsbD 15 then 0x1021 else 0) := by
    rw [BitVec.getLsbD_xor]
    cases x.getLsbD 15 <;> cases y.getLsbD 15 <;> rfl
  rw [crcGenBit_eq, crcGenBit_eq, crcGenBit_eq, hpoly, BitVec.shiftLeft_xor_distrib]
  ac_rfl

/-- The polynomial's last bit is 1, so the bit shifted out can be read back from the last bit. -/
theorem crcGenBit_getLsbD_zero (x : U16) : (crcGenBit x).getLsbD 0 = x.getLsbD 15 := by
  rw [crcGenBit_eq, BitVec.getLsbD_xor]
  cases x.getLsbD 15 <;> simp

theorem eq_zero_of_crcGenBit_eq_zero {x : U16} (h : crcGenBit x = 0) : x = 0 := by
  have htop : x.getLsbD 15 = false := by
    rw [← crcGenBit_getLsbD_zero, h]
    rfl
  have hshift : x <<< 1 = 0 := by
    rw [crcGenBit_eq, htop] at h
    exact BitVec.xor_zero.symm.trans h
  apply BitVec.eq_of_getLsbD_eq
  intro i hi
  rcases Nat.lt_or_ge i 15 with hlt | hge
  · have hbit : (x <<< 1).getLsbD (i + 1) = false := by
      rw [hshift]
      exact BitVec.getLsbD_zero
    have hi' : i + 1 < 16 := by omega
    rw [BitVec.getLsbD_eq_getElem hi]
    simpa [hi'] using hbit
  · obtain rfl : i = 15 := by omega
    exact htop

theorem crcGenBits_xor (n : Nat) (x y : U16) : crcGenBits n (x ^^^ y) = crcGenBits n x ^^^ crcGenBits n y := by
  induction n generalizing x y with
  | zero => rfl
  | succ n ih =>
    rw [crcGenBits, crcGenBit_xor, ih]
    rfl

theorem eq_zero_of_crcGenBits_eq_zero {n : Nat} {x : U16} (h : crcGenBits n x = 0) : x = 0 := by
  induction n generalizing x with
  | zero => exact h
  | succ n ih => exact eq_zero_of_crcGenBit_eq_zero (ih h)

theorem crcGenBits_injective (n : Nat) : Function.Injective (crcGenBits n) := by
  intro x y h
  have hzero : crcGenBits n (x ^^^ y) = 0 := by
    rw [crcGenBits_xor, h]
    exact BitVec.xor_self
  exact BitVec.xor_eq_zero_iff.mp (eq_zero_of_crcGenBits_eq_zero hzero)

/-! The table. -/

theorem crcTable_getElem? : ∀ i : Byte, crcTable[i.toNat]? = some (crcGenBits 8 (i.setWidth 16 <<< 8)) := by
  decide +kernel

theorem romRead_crcTable (i : Byte) : romRead crcTable i = crcGenBits 8 (zext16 i <<< 8) :=
  romRead_of (crcTable_getElem? i)

/-- A byte in the low half reaches the high half with nothing shifted out. -/
theorem crcGenBits_zext16 : ∀ b : Byte, crcGenBits 8 (zext16 b) = zext16 b <<< 8 := by decide +kernel

/-- Shifting a byte up drops the high half of the word it is the low half of. -/
theorem zext16_loByte_shiftLeft (c : U16) : zext16 (loByte c) <<< 8 = c <<< 8 := by
  apply BitVec.eq_of_getLsbD_eq
  intro i hi
  have hlow : i - 8 < 8 := by omega
  have h16 : i - 8 < 16 := by omega
  simp [zext16, loByte, hi, hlow, h16]

/-- A word with a byte added to its high half, half by half. -/
theorem xor_zext16_shiftLeft (c : U16) (b : Byte) :
    c ^^^ zext16 b <<< 8 = zext16 (loByte ((c >>> 8) ^^^ zext16 b)) <<< 8 ^^^ zext16 (loByte c) := by
  apply BitVec.eq_of_getLsbD_eq
  intro i hi
  rcases Nat.lt_or_ge i 8 with hlt | hge
  · simp [zext16, loByte, hlt, hi]
  · have hlow : i - 8 < 8 := by omega
    have h16 : i - 8 < 16 := by omega
    have hsum : 8 + (i - 8) = i := by omega
    simp [zext16, loByte, hlow, h16, hsum, hi, Nat.not_lt.mpr hge]

/-- A step with the default table is eight steps of the division (R95). -/
theorem crcStep_crcTable (c : U16) (b : Byte) : crcStep crcTable c b = crcGenBits 8 (c ^^^ zext16 b <<< 8) := by
  rw [xor_zext16_shiftLeft, crcGenBits_xor, crcGenBits_zext16, zext16_loByte_shiftLeft c, crcStep, romRead_crcTable]

theorem zext16_xor (b g : Byte) : zext16 (b ^^^ g) = zext16 b ^^^ zext16 g := BitVec.setWidth_xor

theorem crcStep_crcTable_xor (c e : U16) (b g : Byte) :
    crcStep crcTable (c ^^^ e) (b ^^^ g) = crcStep crcTable c b ^^^ crcStep crcTable e g := by
  have hword : c ^^^ e ^^^ zext16 (b ^^^ g) <<< 8 = (c ^^^ zext16 b <<< 8) ^^^ (e ^^^ zext16 g <<< 8) := by
    rw [zext16_xor, BitVec.shiftLeft_xor_distrib]
    ac_rfl
  rw [crcStep_crcTable, crcStep_crcTable, crcStep_crcTable, hword, crcGenBits_xor]

theorem crcStep_crcTable_injective_acc (b : Byte) : Function.Injective fun c => crcStep crcTable c b := by
  intro c e h
  simp only [crcStep_crcTable] at h
  exact BitVec.xor_left_inj (zext16 b <<< 8) |>.mp (crcGenBits_injective 8 h)

theorem hiByte_zext16_shiftLeft (b : Byte) : hiByte (zext16 b <<< 8) = b := by
  have hzero : zext16 b <<< 8 ||| zext16 0 = zext16 b <<< 8 := BitVec.or_zero
  rw [← hzero, hiByte_hi_or_lo]

theorem crcStep_crcTable_injective_byte (c : U16) : Function.Injective (crcStep crcTable c) := by
  intro b g h
  simp only [crcStep_crcTable] at h
  have hshift : zext16 b <<< 8 = zext16 g <<< 8 := BitVec.xor_right_inj c |>.mp (crcGenBits_injective 8 h)
  rw [← hiByte_zext16_shiftLeft b, hshift, hiByte_zext16_shiftLeft]

/-! Whole sequences. -/

theorem crcFrom_crcTable_xor (c e : U16) (l m : Bytes) (h : l.length = m.length) :
    crcFrom crcTable (c ^^^ e) (List.zipWith (· ^^^ ·) l m) = crcFrom crcTable c l ^^^ crcFrom crcTable e m := by
  induction l generalizing c e m with
  | nil =>
    cases m with
    | nil => rfl
    | cons g m => cases h
  | cons b l ih =>
    cases m with
    | nil => cases h
    | cons g m =>
      rw [List.zipWith_cons_cons, crcFrom, crcStep_crcTable_xor]
      exact ih _ _ m (Nat.succ.inj h)

theorem crcFrom_crcTable_injective_acc (l : Bytes) : Function.Injective fun c => crcFrom crcTable c l := by
  induction l with
  | nil => exact Function.injective_id
  | cons b l ih => exact ih.comp (crcStep_crcTable_injective_acc b)

/-- One byte replaced by another changes the accumulator, and what follows keeps the difference (R97). -/
theorem crc16_crcTable_ne (pre post : Bytes) {b b' : Byte} (h : b ≠ b') :
    crc16 crcTable (pre ++ b :: post) ≠ crc16 crcTable (pre ++ b' :: post) := by
  unfold crc16
  rw [crcFrom_append, crcFrom_append]
  exact (crcFrom_crcTable_injective_acc post).ne ((crcStep_crcTable_injective_byte _).ne h)

/-- With a first entry of 0 a zero byte leaves the accumulator 0 (R90). -/
theorem crc16_leading_zero {rom : Vector U16 256} (h : rom[0]? = some 0) (l : Bytes) :
    crc16 rom (0x00 :: l) = crc16 rom l := by
  have hread : romRead rom 0x00 = 0 := romRead_of h
  have hstep : crcStep rom Config.crcInit 0x00 = Config.crcInit := by
    change romRead rom 0x00 ^^^ 0 = 0
    rw [hread]
    rfl
  exact congrArg (crcFrom rom · l) hstep

/-- Settles O26: the table entry by entry, the step, linearity, and the leading zero byte. -/
theorem defaultTableDividesByPolynomial : Obligations.DefaultTableDividesByPolynomial := by
  refine ⟨crcTable_getElem?, fun s t l b c hrom hc h => ?step,
    fun l m hlen => crcFrom_crcTable_xor Config.crcInit Config.crcInit l m hlen, fun s l hzero => ?zero⟩
  case step =>
    have hcrc : crc16 crcTable l = c := hrom ▸ execCrc16_returns_iff.mp hc
    cases h
    change Result.crc (crc16 s.rom (l ++ [b])) = _
    rw [hrom, crc16_append_byte, hcrc, crcStep_crcTable]
    rfl
  case zero =>
    change execCrc16 (0x00 :: l) s = execCrc16 l s
    rw [execCrc16, crc16_leading_zero hzero, ← execCrc16]

/-- Settles O27: CRC16 completes on both sequences, with different checksums. -/
theorem defaultTableDetectsByteChange : Obligations.DefaultTableDetectsByteChange := by
  intro s pre post b b' hrom hne
  exact ⟨_, _, execCrc16_eq _ s, execCrc16_eq _ s, hrom ▸ crc16_crcTable_ne pre post hne⟩

end Sys2Proof.Machine
end

section
/-! `PKT_FROM_FIELDS` and the refusals of fields and messages (R38, R102, R112 to R117, R153). -/

namespace Sys2Proof.Machine

variable {cfg : Config} {s t : State} {pk : PktName} {p : Packet} {v scale : Rat} {fs : List FieldArg} {r : Refusal}

/-! The packet memory. -/

/-- Only the last of two writes to a name is seen. -/
theorem Memory.set_set (m : Memory) (pk : PktName) (p q : Packet) : (m.set pk p).set pk q = m.set pk q := by
  induction m with
  | nil => simp [Memory.set]
  | cons a rest ih =>
    obtain ⟨n, x⟩ := a
    by_cases hlt : pk < n
    · simp [Memory.set, hlt]
    · by_cases heq : pk = n
      · simp [Memory.set, heq]
      · simp [Memory.set, hlt, heq, ih]

/-! Refusals of a field. -/

theorem createPacket_msgOverflow {c : Nat} (s : State) (pk : PktName) (p : Packet) (hc : s.cfg.msgCap = some c)
    (h : c < p.message.length) : createPacket pk p s = .refused .msgOverflow := by
  simp [createPacket, hc, not_fits_of_lt h]

theorem checkField_badWidth {w : Nat} (scale : Rat) (h : w ∉ [8, 16, 32]) :
    checkField w scale = .error (.badWidth w) := by
  have hw : ¬ Config.fieldWidths.contains w = true := fun hmem => h (List.contains_iff_mem.mp hmem)
  rw [checkField, if_neg hw]

theorem checkField_badScale (w : FieldWidth) (h : scale ≤ 0) : checkField w.bits scale = .error .badScale := by
  rw [checkField, if_pos (fieldWidth_legal w), if_neg (not_lt.mpr h)]

theorem appendField_of_checkField_error {w : Nat} (v : Rat) (h : checkField w scale = .error r) (cfg : Config)
    (p : Packet) : appendField cfg w v scale p = .error r := by
  simp only [appendField, encodeField, h]

theorem appendField_msgOverflow {w c : Nat} (hfield : checkField w scale = .ok ()) (h₀ : 0 ≤ trunc (v * scale))
    (h₁ : trunc (v * scale) ≤ 2 ^ w - 1) (hc : cfg.msgCap = some c) (hlen : c < p.message.length + w / 8) :
    appendField cfg w v scale p = .error .msgOverflow := by
  have hfits : fits (some c) (p.message.length + w / 8) = false := not_fits_of_lt hlen
  simp [appendField, encodeField_of hfield h₀ h₁, memAppend, hc, hfits]

/-! Lists of fields. -/

/-- What `PKT_FROM_FIELDS` does, by what its appends do. -/
theorem exec_pktFromFields (pk : PktName) (fs : List FieldArg) (s : State) :
    exec (.pktFromFields pk fs) s
      = match appendFields s.cfg fs ⟨[], 0⟩ with
        | .error r => .refused r
        | .ok p => .next { s with pkts := s.pkts.set pk p, result := .packet p } := by
  change execPktFromFields pk fs s = _
  unfold execPktFromFields
  cases h : appendFields s.cfg fs ⟨[], 0⟩ with
  | error r => rfl
  | ok p =>
    obtain ⟨-, -, hfits⟩ := appendFields_ok h
    exact createPacket_of (hfits (fits_of_le fun c _ => Nat.zero_le c))

theorem exec_pktFromFields_next_iff :
    exec (.pktFromFields pk fs) s = .next t
      ↔ ∃ p, appendFields s.cfg fs ⟨[], 0⟩ = .ok p ∧ t = { s with pkts := s.pkts.set pk p, result := .packet p } := by
  rw [exec_pktFromFields]
  cases appendFields s.cfg fs ⟨[], 0⟩ <;> simp [eq_comm]

theorem exec_pktFromFields_refused_iff :
    exec (.pktFromFields pk fs) s = .refused r ↔ appendFields s.cfg fs ⟨[], 0⟩ = .error r := by
  rw [exec_pktFromFields]
  cases appendFields s.cfg fs ⟨[], 0⟩ <;> simp

theorem appendFields_append_of_ok (hfs : appendFields cfg fs ⟨[], 0⟩ = .ok p) (gs : List FieldArg) :
    appendFields cfg (fs ++ gs) ⟨[], 0⟩ = appendFields cfg gs p := by
  simp only [appendFields_append, hfs]

theorem appendFields_append_of_error (hfs : appendFields cfg fs ⟨[], 0⟩ = .error r) (gs : List FieldArg) :
    appendFields cfg (fs ++ gs) ⟨[], 0⟩ = .error r := by
  simp only [appendFields_append, hfs]

theorem appendFields_cons_of_error {f : FieldArg} (hf : appendField cfg f.width f.value f.scale p = .error r)
    (rest : List FieldArg) : appendFields cfg (f :: rest) p = .error r := by
  simp only [appendFields, hf]

theorem appendFields_singleton (cfg : Config) (f : FieldArg) (p : Packet) :
    appendFields cfg [f] p = appendField cfg f.width f.value f.scale p := by
  simp only [appendFields]
  cases appendField cfg f.width f.value f.scale p <;> rfl

/-- A triple refused after those that were not refuses the whole. -/
theorem exec_pktFromFields_refused_after {f : FieldArg} (hfs : appendFields s.cfg fs ⟨[], 0⟩ = .ok p)
    (hf : appendField s.cfg f.width f.value f.scale p = .error r) (pk : PktName) (rest : List FieldArg) :
    exec (.pktFromFields pk (fs ++ f :: rest)) s = .refused r :=
  exec_pktFromFields_refused_iff.mpr ((appendFields_append_of_ok hfs _).trans (appendFields_cons_of_error hf rest))

/-- `APPEND.w` on the packet, as a step. -/
theorem exec_appendInstr_of_get (w : FieldWidth) (hp : s.pkts.get pk = some p) :
    exec (appendInstr w pk v scale) s
      = match appendField s.cfg w.bits v scale p with
        | .error r => .refused r
        | .ok q => .next { s with pkts := s.pkts.set pk q, result := .nothing } := by
  rw [exec_appendInstr, appendTo, withPacket_some _ hp]
  cases appendField s.cfg w.bits v scale p <;> rfl

/-- Settles O31: the appends of a list are those of its first part and then the rest. -/
theorem pktFromFieldsIsAppends : Obligations.PktFromFieldsIsAppends := by
  refine ⟨fun s pk => rfl, fun s s₁ s₂ pk fs w v scale h₁ h₂ => ?appended, fun s s₁ pk fs w v scale r h₁ h₂ => ?refused,
    fun s pk fs rest r h => ?first⟩
  case appended =>
    obtain ⟨p, hp, rfl⟩ := exec_pktFromFields_next_iff.mp h₁
    rw [exec_appendInstr_of_get w (Memory.get_set_same s.pkts pk p)] at h₂
    split at h₂
    · cases h₂
    · next q hq =>
      cases h₂
      refine ⟨q, Memory.get_set_same _ pk q, exec_pktFromFields_next_iff.mpr ⟨q, ?_, ?_⟩⟩
      · rw [appendFields_append_of_ok hp, appendFields_singleton]
        exact hq
      · rw [Memory.set_set]
  case refused =>
    obtain ⟨p, hp, rfl⟩ := exec_pktFromFields_next_iff.mp h₁
    rw [exec_appendInstr_of_get w (Memory.get_set_same s.pkts pk p)] at h₂
    split at h₂
    · next r' hr =>
      cases h₂
      exact exec_pktFromFields_refused_after hp hr pk []
    · cases h₂
  case first =>
    exact exec_pktFromFields_refused_iff.mpr
      (appendFields_append_of_error (exec_pktFromFields_refused_iff.mp h) rest)

/-- A triple that `APPEND` takes: a legal width, a positive scale, a stored integer in range (R112 to R117). -/
def LegalField (f : FieldArg) : Prop :=
  f.width ∈ [8, 16, 32] ∧ 0 < f.scale ∧ 0 ≤ trunc (f.value * f.scale) ∧ trunc (f.value * f.scale) ≤ 2 ^ f.width - 1

/-- The bytes of a field (R103). -/
def fieldBytes (f : FieldArg) : Bytes := beBytes (f.width / 8) (trunc (f.value * f.scale)).toNat

theorem LegalField.encodeField {f : FieldArg} (h : LegalField f) :
    encodeField f.width f.value f.scale = .ok (fieldBytes f) := by
  obtain ⟨hw, hs, h₀, h₁⟩ := h
  exact encodeField_of (checkField_of (List.contains_iff_mem.mpr hw) hs) h₀ h₁

/-- Legal fields go to the end in list order (R102). -/
theorem appendFields_of_legal (hlegal : ∀ f ∈ fs, LegalField f)
    (hfit : fits cfg.msgCap (p.message ++ fs.flatMap fieldBytes).length = true) :
    appendFields cfg fs p = .ok { p with message := p.message ++ fs.flatMap fieldBytes } := by
  induction fs generalizing p with
  | nil => simp [appendFields]
  | cons f rest ih =>
    rw [List.flatMap_cons, ← List.append_assoc] at hfit ⊢
    have hfirst : fits cfg.msgCap (p.message ++ fieldBytes f).length = true :=
      fits_mono (by simp [List.length_append]) hfit
    simp only [appendFields, appendField_of (hlegal f List.mem_cons_self).encodeField hfirst]
    exact ih (fun g hg => hlegal g (List.mem_cons_of_mem f hg)) hfit

/-- Settles O30: from the empty packet the fields' bytes are the message. -/
theorem pktFromFieldsConcatenates : Obligations.PktFromFieldsConcatenates := by
  intro s pk fs hlegal m hcap
  have happend := appendFields_of_legal (cfg := s.cfg) (p := ⟨[], 0⟩) hlegal (fits_of_le hcap)
  exact exec_pktFromFields_next_iff.mpr ⟨_, happend, rfl⟩

/-- Settles O29: the bytes fit. -/
theorem pktFromBytesCreates : Obligations.PktFromBytesCreates :=
  fun _ _ _ hcap => createPacket_of (fits_of_le hcap)

/-! Refusals of the operations. -/

theorem decodeByte_payloadOverflow {c : Nat} {d : DecState} (rom : Vector U16 256) (b : Byte)
    (hphase : d.phase = .payload) (hc : cfg.payloadCap = some c) (hlen : d.payload.length = c) :
    decodeByte cfg rom b d = .error .payloadOverflow := by
  have hfull : fits (some c) (c + 1) = false := not_fits_of_lt (Nat.lt_succ_self c)
  simp [decodeByte, hphase, hc, hlen, hfull]

theorem receiveByte_payloadOverflow {c : Nat} (b : Byte) (hphase : s.ds.phase = .payload)
    (hc : s.cfg.payloadCap = some c) (hlen : s.ds.payload.length = c) :
    receiveByte b s = .refused .payloadOverflow := by
  simp only [receiveByte, decodeByte_payloadOverflow s.rom b hphase hc hlen]

/-- A feed whose first part fills the buffer and which has one byte more. -/
theorem execDecFeed_payloadOverflow {l : Bytes} {c : Nat} (hl : execDecFeed l s = .next t)
    (hphase : t.ds.phase = .payload) (hc : s.cfg.payloadCap = some c) (hlen : t.ds.payload.length = c) (b : Byte) (m : Bytes) :
    execDecFeed (l ++ b :: m) s = .refused .payloadOverflow := by
  obtain ⟨d, os, hd, rfl⟩ := execDecFeed_next hl
  have hbyte : decodeByte s.cfg s.rom b d = .error .payloadOverflow := decodeByte_payloadOverflow s.rom b hphase hc hlen
  have hrest : decodeBytes s.cfg s.rom (b :: m) d = .error .payloadOverflow := by simp only [decodeBytes, hbyte]
  simp only [execDecFeed, decodeBytes_append, hd, hrest]

/-- Settles O11: the byte, the feed, the constructor, and the append alone and within a list. -/
theorem capacityOverflowIsRefused : Obligations.CapacityOverflowIsRefused := by
  refine ⟨fun s b c hphase hc hlen i hi => ?byte,
    fun s t l m b c hl hphase hc hlen => execDecFeed_payloadOverflow hl hphase hc hlen b m,
    fun s pk l c hc hlen => createPacket_msgOverflow s pk ⟨l, 0⟩ hc hlen,
    fun w v scale p pk c hs h₀ h₁ hlen => ⟨fun s hp hc => ?append, fun s t fs rest hfs hp hc => ?fields⟩⟩
  case byte =>
    have hbyte := fun b' => receiveByte_payloadOverflow b' hphase hc hlen
    simp only [List.mem_cons, List.not_mem_nil, or_false] at hi
    rcases hi with rfl | rfl | rfl | rfl | rfl
    all_goals exact hbyte _
  case append =>
    rw [exec_appendInstr_of_get w hp,
      appendField_msgOverflow (checkField_of (fieldWidth_legal w) hs) h₀ h₁ hc hlen]
  case fields =>
    obtain ⟨q, hq, rfl⟩ := exec_pktFromFields_next_iff.mp hfs
    cases (Memory.get_set_same s.pkts pk q).symm.trans hp
    exact exec_pktFromFields_refused_after hq
      (appendField_msgOverflow (checkField_of (fieldWidth_legal w) hs) h₀ h₁ hc hlen) pk rest

theorem withPacket_noPacket (k : Packet → Host.Outcome State Fault Refusal) (h : s.pkts.get pk = none) :
    withPacket pk s k = .refused (.noPacket pk) := by
  simp only [withPacket, h]

/-- Settles O39: the scale, the width within a list, and the packet that is not there. -/
theorem fieldDomainIsRefused : Obligations.FieldDomainIsRefused := by
  refine ⟨fun s pk p v scale adv w hp hs => ⟨?append, ?read⟩, fun s t pk fs rest f hfs hw => ?width,
    fun s pk v scale adv w hp => ⟨?appendNone, ?readNone, withPacket_noPacket _ hp, withPacket_noPacket _ hp⟩⟩
  case append =>
    rw [exec_appendInstr_of_get w hp, appendField_of_checkField_error v (checkField_badScale w hs)]
  case read =>
    simp only [exec_readInstr, readFrom, withPacket_some _ hp, checkField_badScale w hs]
  case width =>
    obtain ⟨p, hp, -⟩ := exec_pktFromFields_next_iff.mp hfs
    exact exec_pktFromFields_refused_after hp
      (appendField_of_checkField_error f.value (checkField_badWidth f.scale hw) s.cfg p) pk rest
  case appendNone => exact (exec_appendInstr w pk v scale s).trans (withPacket_noPacket _ hp)
  case readNone => exact (exec_readInstr w pk scale adv s).trans (withPacket_noPacket _ hp)

end Sys2Proof.Machine
end

section
/-! Rounding, and a field read back from where it was appended (00_scope.md 6.2, R113, R115, R118). -/

namespace Sys2Proof.Machine

theorem trunc_of_nonneg {x : Rat} (h : 0 ≤ x) : trunc x = ⌊x⌋ := by
  rw [trunc, Int.tdiv_eq_ediv_of_nonneg (Rat.num_nonneg.mpr h), Rat.floor_def']

theorem trunc_neg (x : Rat) : trunc (-x) = -trunc x := by
  rw [trunc, Rat.num_neg_eq_neg_num, Rat.den_neg_eq_den, Int.neg_tdiv, trunc]

/-- Settles O32: below 0 by symmetry. -/
theorem truncRoundsTowardZero : Obligations.TruncRoundsTowardZero := by
  refine fun x => ⟨trunc_of_nonneg, fun h => ?_⟩
  have hneg : trunc (-x) = ⌊-x⌋ := trunc_of_nonneg (neg_nonneg.mpr h)
  rw [trunc_neg, Int.floor_neg] at hneg
  exact neg_injective hneg

theorem trunc_intCast (z : Int) : trunc (z : Rat) = z := by
  simp [trunc]

/-- How far rounding and scaling back stays below a value that is not negative. -/
theorem sub_trunc_div_bounds {v scale : Rat} (hs : 0 < scale) (hv : 0 ≤ v) :
    0 ≤ v - (trunc (v * scale) : Rat) / scale ∧ v - (trunc (v * scale) : Rat) / scale < 1 / scale := by
  have hle : (⌊v * scale⌋ : Rat) ≤ v * scale := Int.floor_le _
  have hlt : v * scale < ⌊v * scale⌋ + 1 := Int.lt_floor_add_one _
  rw [trunc_of_nonneg (mul_nonneg hv hs.le)]
  constructor
  · rw [sub_nonneg, div_le_iff₀ hs]
    exact hle
  · rw [sub_lt_iff_lt_add, ← add_div, lt_div_iff₀ hs, add_comm]
    exact hlt

theorem trunc_div_eq_iff {v scale : Rat} (hs : 0 < scale) :
    (trunc (v * scale) : Rat) / scale = v ↔ ∃ z : Int, v * scale = z := by
  rw [div_eq_iff hs.ne']
  refine ⟨fun h => ⟨_, h.symm⟩, fun ⟨z, hz⟩ => ?_⟩
  rw [hz, trunc_intCast]

theorem fieldWidth_bytes (w : FieldWidth) : 8 * (w.bits / 8) = w.bits := by
  cases w <;> rfl

/-- Settles O41: the stored integer `x`, through the three operations. -/
theorem fieldRoundTrip : Obligations.FieldRoundTrip := by
  intro s pk w v scale hs h₀ h₁ hcap
  obtain ⟨x, hx⟩ := Int.eq_ofNat_of_zero_le h₀
  have hmax : x < 2 ^ w.bits := by
    have hlt : (x : Int) < 2 ^ w.bits := by omega
    exact_mod_cast hlt
  have hlen : (beBytes (w.bits / 8) x).length = w.bits / 8 := beBytes_length _ _
  have hread : memRead ([] ++ beBytes (w.bits / 8) x) 0 (w.bits / 8) = beBytes (w.bits / 8) x := by
    rw [List.nil_append, memRead, List.drop_zero, List.take_of_length_le hlen.le]
  have hval : beVal (beBytes (w.bits / 8) x) = x := beVal_beBytes (by rwa [fieldWidth_bytes])
  have hr : (beVal (beBytes (w.bits / 8) x) : Rat) / scale = (trunc (v * scale) : Rat) / scale := by
    rw [hval, hx]
    rfl
  refine ⟨_, _, _, _, exec_pktEmpty pk s,
    exec_appendInstr_of w (Memory.get_set_same s.pkts pk ⟨[], 0⟩) hs hx hmax (by simpa using hcap),
    exec_readInstr_bytes w true (Memory.get_set_same _ pk _) hs hread hlen, rfl, hr, fun hv => ?bounds, ?whole⟩
  case bounds => exact hr ▸ sub_trunc_div_bounds hs hv
  case whole => exact hr ▸ trunc_div_eq_iff hs

end Sys2Proof.Machine
end

section
/-! What operations do to packets, to errors and to each other (R17, R41, R130): facts over every operation. -/

namespace Sys2Proof.Machine

variable {s t : State} {i : Instr} {pk : PktName}

/-! Packets by name (R17). -/

/-- What a use of the packet named `n` may do to it. -/
def UsedAs (u : PacketUse) (n : PktName) (s t : State) : Prop :=
  match u with
  | .creates => ∃ m, t.pkts.get n = some ⟨m, 0⟩
  | .appends => ∃ p bs, s.pkts.get n = some p ∧ t.pkts.get n = some { p with message := p.message ++ bs }
  | .moves => ∃ p k, s.pkts.get n = some p ∧ t.pkts.get n = some { p with index := p.index + k }
  | .discards => t.pkts = []
  | .leaves => t.pkts.get n = s.pkts.get n

/-- A write under another name leaves the packet as it was. -/
theorem usedAs_leaves_set {n : PktName} (s : State) (p : Packet) (r : Result) (hne : pk ≠ n) :
    UsedAs .leaves n s ((s.putPkts (s.pkts.set pk p)).putResult r) :=
  Memory.get_set_other s.pkts p (Ne.symm hne)

theorem receiveByte_usedAs {b : Byte} (h : receiveByte b s = .next t) (n : PktName) : UsedAs .leaves n s t := by
  obtain ⟨d, o, -, rfl⟩ := receiveByte_next h
  rfl

theorem createPacket_usedAs {p : Packet} (hp : p.index = 0) (h : createPacket pk p s = .next t) (n : PktName) :
    UsedAs (if pk = n then .creates else .leaves) n s t := by
  obtain ⟨-, rfl⟩ := createPacket_next h
  by_cases hn : pk = n
  · rw [if_pos hn]
    subst hn
    exact ⟨p.message, (Memory.get_set_same s.pkts pk p).trans (hp ▸ rfl)⟩
  · rw [if_neg hn]
    exact usedAs_leaves_set s p _ hn

theorem execPktFromFields_usedAs {fields : List FieldArg} (h : execPktFromFields pk fields s = .next t) (n : PktName) :
    UsedAs (if pk = n then .creates else .leaves) n s t := by
  unfold execPktFromFields at h
  split at h
  · cases h
  · next p hp =>
    obtain ⟨-, hindex, -⟩ := appendFields_ok hp
    exact createPacket_usedAs hindex h n

theorem appendTo_usedAs {w : Nat} {v scale : Rat} (h : appendTo w pk v scale s = .next t) (n : PktName) :
    UsedAs (if pk = n then .appends else .leaves) n s t := by
  obtain ⟨p, bs, hp, -, -, rfl⟩ := appendTo_next h
  by_cases hn : pk = n
  · rw [if_pos hn]
    subst hn
    exact ⟨p, bs, hp, Memory.get_set_same s.pkts pk _⟩
  · rw [if_neg hn]
    exact usedAs_leaves_set s _ _ hn

/-- A truncated read moves the cursor by nothing (R116). -/
theorem readFrom_usedAs {w : Nat} {scale : Rat} {adv : Bool} (h : readFrom w pk scale adv s = .next t) (n : PktName) :
    UsedAs (if adv = true ∧ pk = n then .moves else .leaves) n s t := by
  obtain ⟨p, hp, -, ht⟩ := readFrom_next h
  by_cases huse : adv = true ∧ pk = n
  · rw [if_pos huse]
    obtain ⟨rfl, rfl⟩ := huse
    rcases ht with ⟨-, rfl⟩ | ⟨-, rfl⟩
    · exact ⟨p, 0, hp, hp⟩
    · exact ⟨p, w / 8, hp, Memory.get_set_same s.pkts pk _⟩
  · rw [if_neg huse]
    rcases ht with ⟨-, rfl⟩ | ⟨-, rfl⟩
    · rfl
    · cases adv with
      | false => rfl
      | true => exact usedAs_leaves_set s _ _ fun hn => huse ⟨rfl, hn⟩

theorem exec_usedAs (h : exec i s = .next t) (n : PktName) : UsedAs (packetUse i n) n s t := by
  cases i with
  | startShort | startLong | startIgnored | terminator | decByte => exact receiveByte_usedAs h n
  | decFeed =>
    obtain ⟨d, os, -, rfl⟩ := execDecFeed_next h
    rfl
  | decReset | reset | crc16 =>
    cases h
    rfl
  | pktEmpty | pktFromBytes => exact createPacket_usedAs rfl h n
  | pktFromFields => exact execPktFromFields_usedAs h n
  | append8 | append16 | append32 => exact appendTo_usedAs h n
  | read8 | read16 | read32 => exact readFrom_usedAs h n
  | remaining =>
    obtain ⟨p, -, hp⟩ := withPacket_next h
    cases hp
    rfl
  | serialize =>
    obtain ⟨r, rfl, -⟩ := execSerialize_next h
    rfl
  | reserved => cases h

/-- Settles O54: each operation uses the packet as `packetUse` says. -/
theorem packetsChangeOnlyAsNamed : Obligations.PacketsChangeOnlyAsNamed := fun _ _ _ n h => exec_usedAs h n

/-! Errors (R130, R136). -/

/-- The operation that an error of a kind comes from, in the state it comes in. -/
def RaisedBy (e : ErrorKind) (i : Instr) (s : State) : Prop :=
  match e with
  | .frameRejected => s.ds.phase = .terminate ∧ onDecoder i = true
  | .truncatedRead => ∃ w pk scale adv, i = readInstr w pk scale adv
  | .malformedLength => ∃ src, i = .serialize src

theorem receiveByte_errorKind {b : Byte} {e : ErrorKind} (h : receiveByte b s = .next t)
    (he : t.result.errorKind = some e) : e = .frameRejected ∧ s.ds.phase = .terminate := by
  obtain ⟨d, o, hd, rfl⟩ := receiveByte_next h
  cases o with
  | silent | success => cases he
  | failure =>
    cases he
    exact ⟨rfl, Decidable.not_not.mp fun hphase => absurd (decodeByte_silent hd hphase) nofun⟩

theorem createPacket_errorKind {p : Packet} (h : createPacket pk p s = .next t) : t.result.errorKind = none := by
  obtain ⟨-, rfl⟩ := createPacket_next h
  rfl

theorem execPktFromFields_errorKind {fields : List FieldArg} (h : execPktFromFields pk fields s = .next t) :
    t.result.errorKind = none := by
  unfold execPktFromFields at h
  split at h
  · cases h
  · exact createPacket_errorKind h

theorem appendTo_errorKind {w : Nat} {v scale : Rat} (h : appendTo w pk v scale s = .next t) :
    t.result.errorKind = none := by
  obtain ⟨p, bs, -, -, -, rfl⟩ := appendTo_next h
  rfl

theorem readFrom_errorKind {w : Nat} {scale : Rat} {adv : Bool} {e : ErrorKind}
    (h : readFrom w pk scale adv s = .next t) (he : t.result.errorKind = some e) : e = .truncatedRead := by
  obtain ⟨p, -, -, ⟨-, rfl⟩ | ⟨-, rfl⟩⟩ := readFrom_next h
  · cases he
    rfl
  · cases he

theorem serializeFrame_error {rom : Vector U16 256} {l : Bytes} {e : OpError} (h : serializeFrame rom l = .error e) :
    e = .malformedLength l.length := by
  unfold serializeFrame at h
  split at h
  · exact (Except.error.inj h).symm
  · cases h

theorem execSerialize_errorKind {src : PayloadArg} {e : ErrorKind} (h : execSerialize src s = .next t)
    (he : t.result.errorKind = some e) : e = .malformedLength := by
  obtain ⟨l, hl⟩ := withPayload_next h
  split at hl
  · cases hl
    cases he
  · next e' he' =>
    cases serializeFrame_error he'
    cases hl
    cases he
    rfl

theorem exec_errorKind {e : ErrorKind} (h : exec i s = .next t) (he : t.result.errorKind = some e) :
    RaisedBy e i s := by
  cases i with
  | startShort | startLong | startIgnored | terminator | decByte =>
    obtain ⟨rfl, hphase⟩ := receiveByte_errorKind h he
    exact ⟨hphase, rfl⟩
  | decFeed =>
    obtain ⟨d, os, -, rfl⟩ := execDecFeed_next h
    cases he
  | decReset | reset | crc16 =>
    cases h
    cases he
  | pktEmpty | pktFromBytes => exact absurd ((createPacket_errorKind h).symm.trans he) nofun
  | pktFromFields => exact absurd ((execPktFromFields_errorKind h).symm.trans he) nofun
  | append8 | append16 | append32 => exact absurd ((appendTo_errorKind h).symm.trans he) nofun
  | read8 pk scale adv =>
    cases readFrom_errorKind h he
    exact ⟨.w8, pk, scale, adv, rfl⟩
  | read16 pk scale adv =>
    cases readFrom_errorKind h he
    exact ⟨.w16, pk, scale, adv, rfl⟩
  | read32 pk scale adv =>
    cases readFrom_errorKind h he
    exact ⟨.w32, pk, scale, adv, rfl⟩
  | remaining =>
    obtain ⟨p, -, hp⟩ := withPacket_next h
    cases hp
    cases he
  | serialize src =>
    cases execSerialize_errorKind h he
    exact ⟨src, rfl⟩
  | reserved => cases h

theorem errorCode_cases (r : Result) : r.errorCode = 0 ∨ r.errorCode = 1 ∨ r.errorCode = 2 ∨ r.errorCode = 3 := by
  unfold Result.errorCode
  cases r.errorKind with
  | none => exact .inl rfl
  | some e => cases e <;> simp [ErrorKind.code]

theorem errorKind_code_injective : Function.Injective ErrorKind.code := by
  intro e e' h
  cases e with
  | frameRejected | truncatedRead | malformedLength => cases e' <;> simp [ErrorKind.code] at h ⊢

/-- The code says the kind; 0 is the code of none (R130). -/
theorem errorKind_of_errorCode {r : Result} {e : ErrorKind} (h : r.errorCode = e.code) : r.errorKind = some e := by
  unfold Result.errorCode at h
  split at h
  · next e' he' => rw [he', errorKind_code_injective h]
  · cases e <;> cases h

/-- Settles O56: the kind behind the code, and the operation behind the kind. -/
theorem errorsComeFromTheirOperations : Obligations.ErrorsComeFromTheirOperations :=
  fun _ _ t h => ⟨errorCode_cases t.result,
    fun hcode => exec_errorKind h (errorKind_of_errorCode (e := .frameRejected) hcode),
    fun hcode => exec_errorKind h (errorKind_of_errorCode (e := .truncatedRead) hcode),
    fun hcode => exec_errorKind h (errorKind_of_errorCode (e := .malformedLength) hcode)⟩

/-! Commuting (R41, R153). -/

/-- No operation reads what the last one returned. -/
theorem exec_putResult (i : Instr) (s : State) (r : Result) : exec i (s.putResult r) = exec i s := by
  cases i with
  | read8 pk scale adv | read16 pk scale adv | read32 pk scale adv => cases adv <;> rfl
  | _ => rfl

/-- An operation on `DS` but `RESET` writes `DS` and its result, and what it writes depends on `DS` and the constants
alone. -/
theorem exec_onDecoder_next (hi : onDecoder i = true) (hne : i ≠ .reset) (h : exec i s = .next t) :
    ∃ d r, t = (s.putDs d).putResult r
      ∧ ∀ u : State, u.ds = s.ds → SameConstants s u → exec i u = .next ((u.putDs d).putResult r) := by
  cases i with
  | startShort | startLong | startIgnored | terminator | decByte =>
    obtain ⟨d, o, hd, rfl⟩ := receiveByte_next h
    refine ⟨d, .outcome o, rfl, fun u hds ⟨hrom, hcfg⟩ => receiveByte_of ?_⟩
    rwa [hds, hrom, hcfg]
  | decFeed =>
    obtain ⟨d, os, hd, rfl⟩ := execDecFeed_next h
    refine ⟨d, .outcomes os, rfl, fun u hds ⟨hrom, hcfg⟩ => execDecFeed_of ?_⟩
    rwa [hds, hrom, hcfg]
  | decReset =>
    cases h
    exact ⟨.fresh, .nothing, rfl, fun _ _ _ => rfl⟩
  | reset => exact absurd rfl hne
  | _ => cases hi

/-- Settles O57: the codec's operation ignores `DS` and the result, and the decoder's reads `DS` and constants alone. -/
theorem decoderAndCodecCommute : Obligations.DecoderAndCodecCommute := by
  intro i c s s₁ t₁ hi hne hc
  have hignores := ignoresDs_exec hc
  refine ⟨fun h₁ h₂ => ?decoderFirst, fun h₁ h₂ => ?codecFirst⟩
  case decoderFirst =>
    obtain ⟨d, r, rfl, hsame⟩ := exec_onDecoder_next hi hne h₁
    rw [exec_putResult, hignores d s] at h₂
    cases hs₂ : exec c s with
    | next s₂ =>
      rw [hs₂] at h₂
      cases h₂
      exact ⟨s₂, rfl, rfl, hsame s₂ (hignores.next_ds hs₂) (exec_writesAtMost hs₂).sameConstants⟩
    | fault f => cases f
    | refused r' =>
      rw [hs₂] at h₂
      cases h₂
  case codecFirst =>
    obtain ⟨d, r, rfl, hsame⟩ := exec_onDecoder_next hi hne h₂
    obtain ⟨hrom, hcfg⟩ := (exec_writesAtMost h₁).sameConstants
    refine ⟨_, hsame s (hignores.next_ds h₁).symm ⟨hrom.symm, hcfg.symm⟩, rfl, ?_⟩
    rw [exec_putResult]
    exact hignores.next_putDs d h₁

/-! The model's own fields. -/

theorem WritesAtMostDsPktsResult.sameMoves (h : WritesAtMostDsPktsResult s t) :
    t.pending = s.pending ∧ t.feeding = s.feeding := by
  obtain ⟨d, m, r, rfl⟩ := h
  exact ⟨rfl, rfl⟩

/-- Settles O60: the frame of an operation, and the constants along a run. -/
theorem capacitiesAndMovesStand : Obligations.CapacitiesAndMovesStand :=
  ⟨fun _ _ _ h => ⟨(exec_writesAtMost h).sameConstants.2, (exec_writesAtMost h).sameMoves⟩,
    fun _ _ _ h => (run_sameConstants h).2⟩

/-- Settles O1: each field of the reset state evaluates. -/
theorem resetLeavesFreshState : Obligations.ResetLeavesFreshState :=
  ⟨rfl, fun _ => rfl, rfl, rfl, rfl, rfl, rfl⟩

end Sys2Proof.Machine
end
